-- ==== Sys2Proof/Word.lean ====
section
/-! DEFINITION. The value types of the machine (spec/00_scope.md R5, R8: every value is unsigned). -/

namespace Sys2Proof

/-- An 8-bit value: a general register, a timer, a memory cell (R5 `REG_WIDTH`, `TIMER_WIDTH`). -/
abbrev Byte := BitVec 8

/-- A 16-bit value: an instruction word, `pc`, `I`, a stack slot (R5 `I_WIDTH`, `PC_WIDTH`, `INSN_WIDTH`). -/
abbrev Word := BitVec 16

/-- The number of a general register, 0 to 15 (R5 `NREG`). -/
abbrev Reg := Fin 16

/-- The number of a key, 0 to 15 (R5 `NKEYS`). -/
abbrev Key := Fin 16

end Sys2Proof
end

