-- ==== Sys2Proof/Config.lean ====
section
/-! DEFINITION. What an instance of the machine fixes: the fixed parameters of 00_scope.md R5, the open parameters of R6 and
the values the spec leaves unspecified. An `opaque` constant has no body: whatever is proved holds for every value of it. -/

namespace Sys2Proof.Config

/-- `MEM_SIZE` (R5). -/
abbrev memSize : Nat := 4096

/-- `PROG_START` (R5). -/
abbrev progStart : Nat := 0x200

/-- `FONT_SIZE` (R5). -/
abbrev fontSize : Nat := 80

/-- `SHIFT_USES_VY` (R6, 92_eei_decisions.md D8): whether `8XY6` and `8XYE` shift `V[Y]`. The spec leaves it open (its
default, false, is not assumed). Log 4, safe. -/
opaque shiftUsesVy : Bool

/-- `FONT` (R6, 92_eei_decisions.md D14): the byte of the built-in font at offset `a`, read for `a < 80` only. The spec
leaves it open (its default, `defaultFont`, is not assumed). Log 5, safe. -/
opaque font : Nat → Byte

/-- The default of `FONT` (10_state.md R22, marked there as general knowledge), glyphs 0 to 3. -/
def defaultFont0 : List Byte :=
  [0xF0, 0x90, 0x90, 0x90, 0xF0, 0x20, 0x60, 0x20, 0x20, 0x70, 0xF0, 0x10, 0xF0, 0x80, 0xF0, 0xF0, 0x10, 0xF0, 0x10, 0xF0]

/-- Glyphs 4 to 7 of the default `FONT`. -/
def defaultFont4 : List Byte :=
  [0x90, 0x90, 0xF0, 0x10, 0x10, 0xF0, 0x80, 0xF0, 0x10, 0xF0, 0xF0, 0x80, 0xF0, 0x90, 0xF0, 0xF0, 0x10, 0x20, 0x40, 0x40]

/-- Glyphs 8 to B of the default `FONT`. -/
def defaultFont8 : List Byte :=
  [0xF0, 0x90, 0xF0, 0x90, 0xF0, 0xF0, 0x90, 0xF0, 0x10, 0xF0, 0xF0, 0x90, 0xF0, 0x90, 0x90, 0xE0, 0x90, 0xE0, 0x90, 0xE0]

/-- Glyphs C to F of the default `FONT`. -/
def defaultFontC : List Byte :=
  [0xF0, 0x80, 0x80, 0x80, 0xF0, 0xE0, 0x90, 0x90, 0x90, 0xE0, 0xF0, 0x80, 0xF0, 0x80, 0xF0, 0xF0, 0x80, 0xF0, 0x80, 0x80]

/-- The default value of `FONT`, 80 bytes (10_state.md R22). -/
def defaultFont : List Byte := defaultFont0 ++ defaultFont4 ++ defaultFont8 ++ defaultFontC

/-- The premise under which a claim about glyph pixels may use the default table (92_eei_decisions.md D14). -/
def FontIsDefault : Prop := ∀ a < fontSize, some (font a) = defaultFont[a]?

/-- `RND` (R6, 44_random.md R170): the byte the environment supplies for the `n`-th draw, under no law. Log 3, safe. -/
opaque rnd : Nat → Byte

/-- `pc` after a fault (60_exceptions.md R204: unspecified), as every `lost` constant below at draw `n`. Log 2, safe. -/
opaque lostPc : Nat → Word

/-- The byte at address `a` after a fault (R204). Log 2, safe. -/
opaque lostByte : Nat → Nat → Byte

/-- The general registers after a fault (R204). Log 2, safe. -/
opaque lostV : Nat → Vector Byte 16

/-- `I` after a fault (R204). Log 2, safe. -/
opaque lostI : Nat → Word

/-- The stack slots after a fault (R204). Log 2, safe. -/
opaque lostStack : Nat → Vector Word 16

/-- `sp` after a fault (R204), within its legal values. Log 2, safe. -/
opaque lostSp : Nat → Fin 17

/-- The key states after a fault (R204). Log 2, safe. -/
opaque lostKeys : Nat → Vector Bool 16

/-- `DT` after a fault (R204). Log 2, safe. -/
opaque lostDt : Nat → Byte

/-- `ST` after a fault (R204). Log 2, safe. -/
opaque lostSt : Nat → Byte

/-- The framebuffer after a fault (R204). Log 2, safe. -/
opaque lostFb : Nat → Vector (Vector Bool 64) 32

/-- The pixel `k` of what `FBREAD` returns while faulted (10_state.md R32: unspecified contents). Log 8, safe. -/
opaque lostFrame : Nat → Nat → Bool

end Sys2Proof.Config
end

