-- ==== Sys2Proof/Syntax.lean ====
section
/-! DEFINITION. The 34 instructions, one constructor per row of spec/opcode_table.json (30_encoding.md R94). -/

namespace Sys2Proof

/-- An instruction with its operand fields (30_encoding.md R91 to R93). A register field is a register number, `NN` a
byte, `NNN` a 12-bit address, `N` of `DXYN` a row count. -/
inductive Instr where
  /-- `00E0`, R175. -/
  | cls
  /-- `00EE`, R120. -/
  | ret
  /-- `1NNN`, R121. -/
  | jp (nnn : BitVec 12)
  /-- `2NNN`, R122. -/
  | call (nnn : BitVec 12)
  /-- `3XNN`, R130. -/
  | seByte (x : Reg) (nn : Byte)
  /-- `4XNN`, R131. -/
  | sneByte (x : Reg) (nn : Byte)
  /-- `5XY0`, R132. -/
  | seReg (x y : Reg)
  /-- `9XY0`, R133. -/
  | sneReg (x y : Reg)
  /-- `6XNN`, R140. -/
  | ldByte (x : Reg) (nn : Byte)
  /-- `7XNN`, R141. -/
  | addByte (x : Reg) (nn : Byte)
  /-- `8XY0`, R142. -/
  | ldReg (x y : Reg)
  /-- `8XY1`, R143. -/
  | orReg (x y : Reg)
  /-- `8XY2`, R144. -/
  | andReg (x y : Reg)
  /-- `8XY3`, R145. -/
  | xorReg (x y : Reg)
  /-- `8XY4`, R146. -/
  | addReg (x y : Reg)
  /-- `8XY5`, R147. -/
  | sub (x y : Reg)
  /-- `8XY6`, R148. -/
  | shr (x y : Reg)
  /-- `8XY7`, R149. -/
  | subn (x y : Reg)
  /-- `8XYE`, R150. -/
  | shl (x y : Reg)
  /-- `ANNN`, R160. -/
  | ldI (nnn : BitVec 12)
  /-- `BNNN`, R123. -/
  | jpV0 (nnn : BitVec 12)
  /-- `CXNN`, R170. -/
  | rnd (x : Reg) (nn : Byte)
  /-- `DXYN`, R176; `n` is the row count. -/
  | drw (x y : Reg) (n : Nat)
  /-- `EX9E`, R185. -/
  | skp (x : Reg)
  /-- `EXA1`, R186. -/
  | sknp (x : Reg)
  /-- `FX07`, R195. -/
  | ldVxDt (x : Reg)
  /-- `FX0A`, R187. -/
  | ldVxK (x : Reg)
  /-- `FX15`, R196. -/
  | ldDtVx (x : Reg)
  /-- `FX18`, R197. -/
  | ldStVx (x : Reg)
  /-- `FX1E`, R161. -/
  | addI (x : Reg)
  /-- `FX29`, R162. -/
  | ldF (x : Reg)
  /-- `FX33`, R163. -/
  | ldB (x : Reg)
  /-- `FX55`, R164. -/
  | stRegs (x : Reg)
  /-- `FX65`, R165. -/
  | ldRegs (x : Reg)
  deriving DecidableEq, Repr

end Sys2Proof
end

