-- ==== Sys2Proof/Decode.lean ====
section
/-! DEFINITION. Decoding (30_encoding.md R90 to R99): total on any bytes, rejecting by name; then the encoder, written from the
same formats, and the opcode map's masks. -/

namespace Sys2Proof

/-- Why bytes are no instruction. -/
inductive Reject where
  /-- Fewer than the two bytes of an instruction word (R90); the case is the list decoder's own (log 16). -/
  | truncated
  /-- A word that matches no pattern (R96). -/
  | unrecognized (w : Word)
  deriving DecidableEq, Repr

/-- Two bytes as one word, the first byte the high one (20_memory.md R63). -/
def wordOfBytes (hi lo : Byte) : Word := hi ++ lo

/-- The byte at the lower address of a stored word (20_memory.md R63). -/
def highByte (w : Word) : Byte := w.extractLsb' 8 8

/-- The byte at the higher address of a stored word (20_memory.md R63). -/
def lowByte (w : Word) : Byte := w.extractLsb' 0 8

/-- `OP = w[15:12]`, the family selector (R91). -/
def fieldOp (w : Word) : BitVec 4 := w.extractLsb' 12 4

/-- `X = w[11:8]` as a register number (R91). -/
def fieldX (w : Word) : Reg := (w.extractLsb' 8 4).toFin

/-- `Y = w[7:4]` as a register number (R91). -/
def fieldY (w : Word) : Reg := (w.extractLsb' 4 4).toFin

/-- `N = w[3:0]` (R91). -/
def fieldN (w : Word) : BitVec 4 := w.extractLsb' 0 4

/-- `NN = w[7:0]` (R91). -/
def fieldNN (w : Word) : Byte := w.extractLsb' 0 8

/-- `NNN = w[11:0]` (R91). -/
def fieldNNN (w : Word) : BitVec 12 := w.extractLsb' 0 12

/-- Family 0: the two words 00E0 and 00EE exactly (R94 rows 1, 2; R96). -/
def decodeFamily0 (w : Word) : Except Reject Instr :=
  match fieldNNN w with
  | 0x0E0#12 => .ok .cls
  | 0x0EE#12 => .ok .ret
  | _ => .error (.unrecognized w)

/-- Family 8, by sub-opcode `N` (R95). -/
def decodeFamily8 (w : Word) : Except Reject Instr :=
  match fieldN w with
  | 0x0#4 => .ok (.ldReg (fieldX w) (fieldY w))
  | 0x1#4 => .ok (.orReg (fieldX w) (fieldY w))
  | 0x2#4 => .ok (.andReg (fieldX w) (fieldY w))
  | 0x3#4 => .ok (.xorReg (fieldX w) (fieldY w))
  | 0x4#4 => .ok (.addReg (fieldX w) (fieldY w))
  | 0x5#4 => .ok (.sub (fieldX w) (fieldY w))
  | 0x6#4 => .ok (.shr (fieldX w) (fieldY w))
  | 0x7#4 => .ok (.subn (fieldX w) (fieldY w))
  | 0xE#4 => .ok (.shl (fieldX w) (fieldY w))
  | _ => .error (.unrecognized w)

/-- Family E, by sub-opcode `NN` (R94 rows 24, 25). -/
def decodeFamilyE (w : Word) : Except Reject Instr :=
  match fieldNN w with
  | 0x9E#8 => .ok (.skp (fieldX w))
  | 0xA1#8 => .ok (.sknp (fieldX w))
  | _ => .error (.unrecognized w)

/-- Family F, by sub-opcode `NN` (R94 rows 26 to 34). -/
def decodeFamilyF (w : Word) : Except Reject Instr :=
  match fieldNN w with
  | 0x07#8 => .ok (.ldVxDt (fieldX w))
  | 0x0A#8 => .ok (.ldVxK (fieldX w))
  | 0x15#8 => .ok (.ldDtVx (fieldX w))
  | 0x18#8 => .ok (.ldStVx (fieldX w))
  | 0x1E#8 => .ok (.addI (fieldX w))
  | 0x29#8 => .ok (.ldF (fieldX w))
  | 0x33#8 => .ok (.ldB (fieldX w))
  | 0x55#8 => .ok (.stRegs (fieldX w))
  | 0x65#8 => .ok (.ldRegs (fieldX w))
  | _ => .error (.unrecognized w)

/-- `Decode(w)` (R94): the instruction of the one pattern that fits, else a rejection that names the word (R96). -/
def decodeWord (w : Word) : Except Reject Instr :=
  match fieldOp w with
  | 0x0#4 => decodeFamily0 w
  | 0x1#4 => .ok (.jp (fieldNNN w))
  | 0x2#4 => .ok (.call (fieldNNN w))
  | 0x3#4 => .ok (.seByte (fieldX w) (fieldNN w))
  | 0x4#4 => .ok (.sneByte (fieldX w) (fieldNN w))
  | 0x5#4 => if fieldN w = 0 then .ok (.seReg (fieldX w) (fieldY w)) else .error (.unrecognized w)
  | 0x6#4 => .ok (.ldByte (fieldX w) (fieldNN w))
  | 0x7#4 => .ok (.addByte (fieldX w) (fieldNN w))
  | 0x8#4 => decodeFamily8 w
  | 0x9#4 => if fieldN w = 0 then .ok (.sneReg (fieldX w) (fieldY w)) else .error (.unrecognized w)
  | 0xA#4 => .ok (.ldI (fieldNNN w))
  | 0xB#4 => .ok (.jpV0 (fieldNNN w))
  | 0xC#4 => .ok (.rnd (fieldX w) (fieldNN w))
  | 0xD#4 => .ok (.drw (fieldX w) (fieldY w) (fieldN w).toNat)
  | 0xE#4 => decodeFamilyE w
  | 0xF#4 => decodeFamilyF w
  | _ => .error (.unrecognized w)

/-- Decoding from bytes in memory order: the instruction and the bytes after it (R90). -/
def decode : List Byte → Except Reject (Instr × List Byte)
  | hi :: lo :: rest => (decodeWord (wordOfBytes hi lo)).map (·, rest)
  | _ => .error .truncated

/-- Format `NNN` (R92). -/
def packNNN (op : BitVec 4) (nnn : BitVec 12) : Word := op ++ nnn

/-- Format `XNN`, and `XSS` with the sub-opcode as `nn` (R92). -/
def packXNN (op : BitVec 4) (x : Reg) (nn : Byte) : Word := op ++ BitVec.ofFin (w := 4) x ++ nn

/-- Formats `XYS` and `XYN` (R92). -/
def packXYN (op : BitVec 4) (x y : Reg) (n : BitVec 4) : Word :=
  op ++ BitVec.ofFin (w := 4) x ++ BitVec.ofFin (w := 4) y ++ n

/-- The word of an instruction (R92, R94). -/
def encodeWord : Instr → Word
  | .cls => 0x00E0
  | .ret => 0x00EE
  | .jp nnn => packNNN 0x1 nnn
  | .call nnn => packNNN 0x2 nnn
  | .seByte x nn => packXNN 0x3 x nn
  | .sneByte x nn => packXNN 0x4 x nn
  | .seReg x y => packXYN 0x5 x y 0x0
  | .sneReg x y => packXYN 0x9 x y 0x0
  | .ldByte x nn => packXNN 0x6 x nn
  | .addByte x nn => packXNN 0x7 x nn
  | .ldReg x y => packXYN 0x8 x y 0x0
  | .orReg x y => packXYN 0x8 x y 0x1
  | .andReg x y => packXYN 0x8 x y 0x2
  | .xorReg x y => packXYN 0x8 x y 0x3
  | .addReg x y => packXYN 0x8 x y 0x4
  | .sub x y => packXYN 0x8 x y 0x5
  | .shr x y => packXYN 0x8 x y 0x6
  | .subn x y => packXYN 0x8 x y 0x7
  | .shl x y => packXYN 0x8 x y 0xE
  | .ldI nnn => packNNN 0xA nnn
  | .jpV0 nnn => packNNN 0xB nnn
  | .rnd x nn => packXNN 0xC x nn
  | .drw x y n => packXYN 0xD x y (BitVec.ofNat 4 n)
  | .skp x => packXNN 0xE x 0x9E
  | .sknp x => packXNN 0xE x 0xA1
  | .ldVxDt x => packXNN 0xF x 0x07
  | .ldVxK x => packXNN 0xF x 0x0A
  | .ldDtVx x => packXNN 0xF x 0x15
  | .ldStVx x => packXNN 0xF x 0x18
  | .addI x => packXNN 0xF x 0x1E
  | .ldF x => packXNN 0xF x 0x29
  | .ldB x => packXNN 0xF x 0x33
  | .stRegs x => packXNN 0xF x 0x55
  | .ldRegs x => packXNN 0xF x 0x65

/-- A word as stored, high byte first (20_memory.md R63). -/
def bytesOfWord (w : Word) : List Byte := [highByte w, lowByte w]

/-- The bytes of an instruction in memory order. -/
def encode (i : Instr) : List Byte := bytesOfWord (encodeWord i)

/-- The opcode map of R94: `mask` and `match` of each row, in the table's order. -/
def opcodeMap : List (Word × Word) :=
  [(0xFFFF, 0x00E0), (0xFFFF, 0x00EE), (0xF000, 0x1000), (0xF000, 0x2000), (0xF000, 0x3000), (0xF000, 0x4000),
   (0xF00F, 0x5000), (0xF00F, 0x9000), (0xF000, 0x6000), (0xF000, 0x7000), (0xF00F, 0x8000), (0xF00F, 0x8001)] ++
  [(0xF00F, 0x8002), (0xF00F, 0x8003), (0xF00F, 0x8004), (0xF00F, 0x8005), (0xF00F, 0x8006), (0xF00F, 0x8007),
   (0xF00F, 0x800E), (0xF000, 0xA000), (0xF000, 0xB000), (0xF000, 0xC000), (0xF000, 0xD000)] ++
  [(0xF0FF, 0xE09E), (0xF0FF, 0xE0A1), (0xF0FF, 0xF007), (0xF0FF, 0xF00A), (0xF0FF, 0xF015), (0xF0FF, 0xF018),
   (0xF0FF, 0xF01E), (0xF0FF, 0xF029), (0xF0FF, 0xF033), (0xF0FF, 0xF055), (0xF0FF, 0xF065)]

/-- The row of `opcodeMap` an instruction stands in (R94), counted from 0. -/
def Instr.row : Instr → Nat
  | .cls => 0
  | .ret => 1
  | .jp _ => 2
  | .call _ => 3
  | .seByte _ _ => 4
  | .sneByte _ _ => 5
  | .seReg _ _ => 6
  | .sneReg _ _ => 7
  | .ldByte _ _ => 8
  | .addByte _ _ => 9
  | .ldReg _ _ => 10
  | .orReg _ _ => 11
  | .andReg _ _ => 12
  | .xorReg _ _ => 13
  | .addReg _ _ => 14
  | .sub _ _ => 15
  | .shr _ _ => 16
  | .subn _ _ => 17
  | .shl _ _ => 18
  | .ldI _ => 19
  | .jpV0 _ => 20
  | .rnd _ _ => 21
  | .drw _ _ _ => 22
  | .skp _ => 23
  | .sknp _ => 24
  | .ldVxDt _ => 25
  | .ldVxK _ => 26
  | .ldDtVx _ => 27
  | .ldStVx _ => 28
  | .addI _ => 29
  | .ldF _ => 30
  | .ldB _ => 31
  | .stRegs _ => 32
  | .ldRegs _ => 33

/-- The instruction the decoder reads from a word whose low `nbits` bits are those of `w` (bit 0 the least significant bit
of the word, as the opcode table numbers it), laid out in memory and decoded from there. -/
def decodeTableWord (nbits w : Nat) : Option Instr :=
  match decode (bytesOfWord (BitVec.ofNat 16 (w % 2 ^ nbits))) with
  | .ok (i, _) => some i
  | .error _ => none

end Sys2Proof
end

