-- ==== Sys2Proof/Machine/State.lean ====
section
/-! DEFINITION. The state of the machine as plain data (10_state.md R20 to R36), its value after reset, and the reasons a step
could stop. -/

namespace Sys2Proof.Machine

/-- The kinds of fatal fault (60_exceptions.md R201). Each is TAKEN: it leads to a next state, the faulted one (R204). -/
inductive FaultKind where
  /-- Code 1: an access to an address above 4095, by the fetch, `DXYN`, `FX33`, `FX55`, `FX65` or an oversize `LOAD`. -/
  | memoryOutOfBounds
  /-- Code 2: the fetched word matches no pattern. -/
  | unrecognizedInstruction
  /-- Code 3: `2NNN` with a full stack. -/
  | stackOverflow
  /-- Code 4: `00EE` with an empty stack. -/
  | stackUnderflow
  /-- Code 5: `EX9E` or `EXA1` with a key number above 15. -/
  | keyIndexOutOfRange
  deriving DecidableEq, Repr

/-- What the host may present (00_scope.md R10; 10_state.md R36). -/
inductive Event where
  /-- `RESET` (70_reset_and_hazards.md R230). -/
  | reset
  /-- `LOAD(bytes)` (20_memory.md R68). -/
  | load (bytes : List Byte)
  /-- `SETKEY(k, p)` (46_keypad.md R188). -/
  | setKey (k : Key) (pressed : Bool)
  /-- `CYCLE` (10_state.md R37). -/
  | cycle
  /-- `TICK` (47_timers.md R198). -/
  | tick
  /-- `FBREAD` (45_display.md R178). -/
  | fbRead
  deriving DecidableEq, Repr

/-- What the block gives the host (60_exceptions.md R214). -/
inductive Output where
  /-- `SOUND_STOP` (47_timers.md R198). -/
  | soundStop
  /-- The answer of `FBREAD`, 2048 Booleans, row-major (45_display.md R178). -/
  | frame (pixels : List Bool)
  deriving DecidableEq, Repr

/-- Memory as the cells that differ from what an unlisted address reads as, addresses rising (10_state.md R22). -/
abbrev Memory := List Host.Cell

/-- `fb[y][x]`, 32 rows of 64 cells (10_state.md R31). -/
abbrev Framebuffer := Vector (Vector Bool 64) 32

/-- Everything the spec gives the machine (10_state.md R20), and three fields of the model's own (`draws`, `inbox`,
`outbox`). -/
structure State where
  /-- Program counter (R21). -/
  pc : Word
  /-- Memory (R22). -/
  mem : Memory
  /-- General registers `V[0..15]`, `V[15]` the flag register (R23, R24). -/
  v : Vector Byte 16
  /-- Index register `I` (R25). -/
  i : Word
  /-- Return stack (R26). -/
  stack : Vector Word 16
  /-- Stack pointer, 0 to 16 (R27). -/
  sp : Fin 17
  /-- Keypad state (R28). -/
  keys : Vector Bool 16
  /-- Delay timer `DT` (R29). -/
  dt : Byte
  /-- Sound timer `ST` (R30). -/
  st : Byte
  /-- Framebuffer (R31). -/
  fb : Framebuffer
  /-- Fault latch (R32). -/
  faulted : Bool
  /-- `fault_code`, meaningful only while `faulted` (R32). -/
  faultCode : BitVec 3
  /-- MODEL'S OWN: how many free values have been used; the index of the next one (log 3). -/
  draws : Nat
  /-- MODEL'S OWN: the host's coming events, the next one first; where none is listed the host presents `CYCLE` (log 6). -/
  inbox : List Event
  /-- MODEL'S OWN: what the block has emitted, oldest first (log 7). -/
  outbox : List Output
  deriving DecidableEq, Repr

/-- The state after creation and after `RESET` (10_state.md R35; 70_reset_and_hazards.md R230, R231). `faultCode` is
unspecified there: 0 is a DESIGN CHOICE (log 9), unsafe; so are the model's own fields' values (logs 3, 6, 7). -/
def State.reset : State where
  pc := 0x0200
  mem := []
  v := Vector.replicate 16 0
  i := 0
  stack := Vector.replicate 16 0
  sp := 0
  keys := Vector.replicate 16 false
  dt := 0
  st := 0
  fb := Vector.replicate 32 (Vector.replicate 64 false)
  faulted := false
  faultCode := 0
  draws := 0
  inbox := []
  outbox := []

/-- The outcome `fault` of a step. It has no constructor: the spec describes what a fault does (60_exceptions.md R204), so
every fault is taken and leads to a next state (log 1). -/
inductive Fault where
  deriving DecidableEq, Repr

/-- The outcome `refused` of a step. -/
inductive Refusal where
  /-- An instruction without a meaning in this model: raised by no arm (safe). -/
  | notModelled (mnemonic : String)
  deriving DecidableEq, Repr

/-- What a meaning answers. -/
abbrev Result := Host.Outcome State Fault Refusal

end Sys2Proof.Machine
end

