-- ==== Sys2Proof/Machine/Ops.lean ====
section
/-! DEFINITION. The named operations over memory, registers, stack, keys and framebuffer, the fetch, and taking a fault. -/

namespace Sys2Proof.Machine

/-! ### Memory (20_memory.md R60 to R73) -/

/-- The byte of the constant table `FONT` at offset `a` (10_state.md R22). -/
def fontByte (a : Nat) : Byte := Config.font a

/-- What an address no cell lists reads as: the reset contents, `FONT` in 0..79 and 0 above (10_state.md R35). -/
def unlisted (a : Nat) : Byte := if a < Config.fontSize then fontByte a else 0

/-- The byte at `a`. -/
def Memory.read : Memory → Nat → Byte
  | [], a => unlisted a
  | (b, u) :: m, a => if a < b then unlisted a else if a = b then u else Memory.read m a

/-- `mem[a] <- b`: the byte `w` at `a`, in canonical form. -/
def Memory.write : Memory → Nat → Byte → Memory
  | [], a, w => if w = unlisted a then [] else [(a, w)]
  | (b, u) :: m, a, w =>
    if a < b then if w = unlisted a then (b, u) :: m else (a, w) :: (b, u) :: m
    else if a = b then if w = unlisted a then m else (a, w) :: m
    else (b, u) :: Memory.write m a w

/-- The bytes `ws` at `a`, `a + 1`, ... in ascending order. -/
def Memory.writeBytes : Memory → Nat → List Byte → Memory
  | m, _, [] => m
  | m, a, w :: ws => Memory.writeBytes (Memory.write m a w) (a + 1) ws

/-- The `n` bytes at `a`, `a + 1`, ... in ascending order. -/
def Memory.readBytes (m : Memory) (a n : Nat) : List Byte := (List.range n).map fun k => m.read (a + k)

/-- The canonical form: addresses strictly rising, inside memory, no entry equal to what its address reads as unlisted. -/
abbrev Memory.wf (m : Memory) : Prop :=
  List.Pairwise (fun c d : Host.Cell => c.1 < d.1) m ∧ ∀ c ∈ m, c.1 < Config.memSize ∧ c.2 ≠ unlisted c.1

/-- The memory whose byte at each `a` is `f a`, in canonical form; irreducible, since unfolding its 4096 cells helps no proof. -/
@[irreducible] def Memory.tabulate (f : Nat → Byte) : Memory :=
  ((List.range Config.memSize).map fun a => (a, f a)).filter fun c => c.2 ≠ unlisted c.1

/-- Whether an access to the `n` bytes from `a` leaves memory. Addresses are natural numbers, never wrapped, and the check is
made once, on the highest address (R62, R69); no byte, no check. -/
def outOfMemory (a n : Nat) : Bool := decide (0 < n ∧ Config.memSize ≤ a + n - 1)

/-! ### Registers -/

/-- `V[r]` (10_state.md R23). -/
def State.reg (s : State) (r : Reg) : Byte := s.v[r]

/-- `V[r] <- b`. -/
def State.setReg (s : State) (r : Reg) (b : Byte) : State := { s with v := s.v.set r b }

/-- `VF`, the flag register (10_state.md R24). -/
abbrev flagReg : Reg := 15

/-- `pc <- a` (10_state.md R21). -/
def State.setPc (s : State) (a : Word) : State := { s with pc := a }

/-- `I <- a` (10_state.md R25). -/
def State.setI (s : State) (a : Word) : State := { s with i := a }

/-- `DT <- b` (10_state.md R29). -/
def State.setDt (s : State) (b : Byte) : State := { s with dt := b }

/-- `ST <- b` (10_state.md R30). -/
def State.setSt (s : State) (b : Byte) : State := { s with st := b }

/-- The memory replaced. -/
def State.setMem (s : State) (m : Memory) : State := { s with mem := m }

/-- The framebuffer replaced. -/
def State.setFb (s : State) (fb : Framebuffer) : State := { s with fb := fb }

/-- `V[0..n-1]` loaded from `a`, `a + 1`, ... of `m`, the registers from `n` on kept (43_index_and_memory.md R165). -/
def loadRegs (m : Memory) (a : Nat) (v : Vector Byte 16) : Nat → Vector Byte 16
  | 0 => v
  | n + 1 => if h : n < 16 then (loadRegs m a v n).set n (m.read (a + n)) else loadRegs m a v n

/-- `V[0], ..., V[n-1]` in order (43_index_and_memory.md R164). -/
def State.firstRegs (s : State) (n : Nat) : List Byte := s.v.toList.take n

/-! ### Skips and the stack -/

/-- Passing over the next 2-byte instruction when `c` holds (41_conditional_skips.md). -/
def State.skipIf (s : State) (c : Bool) : State := if c then s.setPc (s.pc + 2) else s

/-- Push: `stack[sp] <- a; sp <- sp + 1`; none when the stack is full (10_state.md R27; 60_exceptions.md R207). -/
def State.push (s : State) (a : Word) : Option State :=
  if h : s.sp.val < 16 then some { s with stack := s.stack.set s.sp.val a h, sp := ⟨s.sp.val + 1, by omega⟩ } else none

/-- Pop: `sp <- sp - 1`, answering `stack[sp]`, the slot kept; none when the stack is empty (10_state.md R26, R27). -/
def State.pop (s : State) : Option (Word × State) :=
  if 0 < s.sp.val then
    some (s.stack[s.sp.val - 1]'(by have := s.sp.isLt; omega), { s with sp := ⟨s.sp.val - 1, by have := s.sp.isLt; omega⟩ })
  else none

/-! ### Keys -/

/-- `keys[k]` (10_state.md R28). -/
def State.key (s : State) (k : Key) : Bool := s.keys[k]

/-- The key a register's value numbers; none above 15 (46_keypad.md R185). -/
def keyNumbered (b : Byte) : Option Key := if h : b.toNat < 16 then some ⟨b.toNat, h⟩ else none

/-- The least pressed key (46_keypad.md R187: scan in ascending index order). -/
def State.firstKey (s : State) : Option Key := (List.finRange 16).find? fun k => s.key k

/-! ### Framebuffer (45_display.md) -/

/-- `fb[y][x]`. -/
def Framebuffer.pixel (fb : Framebuffer) (y : Fin 32) (x : Fin 64) : Bool := fb[y][x]

/-- `fb[y][x] <- fb[y][x] xor 1`. -/
def Framebuffer.toggle (fb : Framebuffer) (y : Fin 32) (x : Fin 64) : Framebuffer := fb.set y (fb[y].set x (!fb[y][x]))

/-- All cells clear (R175). -/
def Framebuffer.clear : Framebuffer := Vector.replicate 32 (Vector.replicate 64 false)

/-- One set bit of a sprite, at `(px, py)` modulo the size: collision when the cell was set, then the XOR (R176). -/
def drawBit (px py : Nat) (d : Framebuffer × Bool) : Framebuffer × Bool :=
  (d.1.toggle (Fin.ofNat 32 py) (Fin.ofNat 64 px), d.2 || d.1.pixel (Fin.ofNat 32 py) (Fin.ofNat 64 px))

/-- One row of a sprite: columns 0 to 7 of byte `b`, bit 7 the leftmost (R176, R177). -/
def drawRow (vx py : Nat) (b : Byte) (d : Framebuffer × Bool) : Framebuffer × Bool :=
  (List.range 8).foldl (fun d col => if b.getLsbD (7 - col) then drawBit (vx + col) py d else d) d

/-- The rows of a sprite from the row `py` down (R176); the Boolean is the collision so far. -/
def drawRows (vx : Nat) : Nat → List Byte → Framebuffer × Bool → Framebuffer × Bool
  | _, [], d => d
  | py, b :: bs, d => drawRows vx (py + 1) bs (drawRow vx py b d)

/-- The 2048 cells in row-major order, element `64*y + x` being `fb[y][x]` (R178). -/
def Framebuffer.readOut (fb : Framebuffer) : List Bool := fb.toList.flatMap Vector.toList

/-! ### Faults (60_exceptions.md) -/

/-- The code of a fault kind (R201). -/
def FaultKind.code : FaultKind → BitVec 3
  | .memoryOutOfBounds => 1
  | .unrecognizedInstruction => 2
  | .stackOverflow => 3
  | .stackUnderflow => 4
  | .keyIndexOutOfRange => 5

/-- `raise Fault(kind)` (R204): `faulted` set, `fault_code` the kind's, every other element of the spec unspecified, so a free
value. The model's own fields: the draw is used, the host's events and what was emitted stay. -/
def enterFault (k : FaultKind) (s : State) : State where
  faulted := true
  faultCode := k.code
  pc := Config.lostPc s.draws
  mem := Memory.tabulate (Config.lostByte s.draws)
  v := Config.lostV s.draws
  i := Config.lostI s.draws
  stack := Config.lostStack s.draws
  sp := Config.lostSp s.draws
  keys := Config.lostKeys s.draws
  dt := Config.lostDt s.draws
  st := Config.lostSt s.draws
  fb := Config.lostFb s.draws
  draws := s.draws + 1
  inbox := s.inbox
  outbox := s.outbox

/-- The result of an operation that faults. -/
def raise (k : FaultKind) (s : State) : Result := .next (enterFault k s)

/-! ### Fetch -/

/-- `Fetch()` (20_memory.md R65): the word at `pc`, high byte first, and the state with `pc` moved past it; none when `pc` or
`pc + 1` lies outside memory. `pc + 2` is taken modulo 65536 (10_state.md R21 allows it; unreachable). -/
def State.fetch (s : State) : Option (Word × State) :=
  if outOfMemory s.pc.toNat 2 then none
  else some (wordOfBytes (s.mem.read s.pc.toNat) (s.mem.read (s.pc.toNat + 1)), s.setPc (s.pc + 2))

end Sys2Proof.Machine
end

