-- ==== Sys2Proof/Machine/Flags.lean ====
section
/-! DEFINITION. The 8-bit arithmetic with its flag (42_load_and_alu.md R146 to R152) and the write of result and flag. -/

namespace Sys2Proof.Machine

/-- A flag as the 8-bit value 0 or 1 (10_state.md R24). -/
def flagByte (c : Bool) : Byte := if c then 1 else 0

/-- `a + b` with its carry (R146): the exact sum, narrowed. -/
def addCarry (a b : Byte) : Byte × Bool := (BitVec.ofNat 8 (a.toNat + b.toNat), decide (255 < a.toNat + b.toNat))

/-- `a - b` with its not-borrow (R147): equal operands do not borrow. -/
def subNotBorrow (a b : Byte) : Byte × Bool := (a - b, decide (b.toNat ≤ a.toNat))

/-- `a >> 1` with bit 0 of `a` (R148). -/
def shiftRight (a : Byte) : Byte × Bool := (a >>> 1, a.getLsbD 0)

/-- `a << 1` modulo 256 with bit 7 of `a` (R150). -/
def shiftLeft (a : Byte) : Byte × Bool := (a <<< 1, a.getLsbD 7)

/-- The result to `V[x]`, then the flag to `VF` (10_state.md R41: the flag is written last). -/
def State.setRegFlag (s : State) (x : Reg) (r : Byte × Bool) : State := (s.setReg x r.1).setReg flagReg (flagByte r.2)

end Sys2Proof.Machine
end

