-- ==== Sys2Proof/Machine/Operands.lean ====
section
/-! DEFINITION. The operand forms: immediates (30_encoding.md R93), the address form `I` plus offset (20_memory.md R69), the
shift source (42_load_and_alu.md R148) and the input byte (44_random.md R170). -/

namespace Sys2Proof.Machine

/-- A 12-bit immediate zero-extended to 16 bits (R93). -/
def zext12 (nnn : BitVec 12) : Word := nnn.setWidth 16

/-- A byte zero-extended to 16 bits (R93). -/
def zext8 (b : Byte) : Word := b.setWidth 16

/-- The base of every data access, `I` as a natural number (20_memory.md R62, R69). -/
def State.base (s : State) : Nat := s.i.toNat

/-- The value `8XY6` and `8XYE` shift: `V[Y]` if `SHIFT_USES_VY`, else `V[X]` (R148, R150; log 4). -/
def State.shiftSource (s : State) (x y : Reg) : Byte := if Config.shiftUsesVy then s.reg y else s.reg x

/-- The next byte `RND`, and the state with that draw used (44_random.md R170; log 3). -/
def State.drawRnd (s : State) : Byte × State := (Config.rnd s.draws, { s with draws := s.draws + 1 })

/-- The address of the glyph of a value's low nibble: `FONT_BASE + GLYPH_STRIDE * digit` (43_index_and_memory.md R162). -/
def glyphAddress (b : Byte) : Word := 5 * zext8 (b &&& 0x0F)

/-- The decimal digits of a byte, hundreds, tens, ones (43_index_and_memory.md R163). -/
def bcdDigits (b : Byte) : List Byte := [b / 100, b / 10 % 10, b % 10]

end Sys2Proof.Machine
end

