-- ==== Sys2Proof/Machine/Alu.lean ====
section
/-! DEFINITION. Register load and the 8-bit ALU (42_load_and_alu.md). -/

namespace Sys2Proof.Machine

/-- `6XNN` (R140). -/
def execLdByte (x : Reg) (nn : Byte) (s : State) : Result := .next (s.setReg x nn)

/-- `7XNN` (R141): no flag. -/
def execAddByte (x : Reg) (nn : Byte) (s : State) : Result := .next (s.setReg x (addCarry (s.reg x) nn).1)

/-- `8XY0` (R142). -/
def execLdReg (x y : Reg) (s : State) : Result := .next (s.setReg x (s.reg y))

/-- `8XY1` (R143): no flag. -/
def execOrReg (x y : Reg) (s : State) : Result := .next (s.setReg x (s.reg x ||| s.reg y))

/-- `8XY2` (R144): no flag. -/
def execAndReg (x y : Reg) (s : State) : Result := .next (s.setReg x (s.reg x &&& s.reg y))

/-- `8XY3` (R145): no flag. -/
def execXorReg (x y : Reg) (s : State) : Result := .next (s.setReg x (s.reg x ^^^ s.reg y))

/-- `8XY4` (R146). -/
def execAddReg (x y : Reg) (s : State) : Result := .next (s.setRegFlag x (addCarry (s.reg x) (s.reg y)))

/-- `8XY5` (R147). -/
def execSub (x y : Reg) (s : State) : Result := .next (s.setRegFlag x (subNotBorrow (s.reg x) (s.reg y)))

/-- `8XY6` (R148). -/
def execShr (x y : Reg) (s : State) : Result := .next (s.setRegFlag x (shiftRight (s.shiftSource x y)))

/-- `8XY7` (R149). -/
def execSubn (x y : Reg) (s : State) : Result := .next (s.setRegFlag x (subNotBorrow (s.reg y) (s.reg x)))

/-- `8XYE` (R150). -/
def execShl (x y : Reg) (s : State) : Result := .next (s.setRegFlag x (shiftLeft (s.shiftSource x y)))

end Sys2Proof.Machine
end

