-- ==== Sys2Proof/Machine/Control.lean ====
section
/-! DEFINITION. Control transfer (40_control_transfer.md). `s.pc` is already the address of the following instruction. -/

namespace Sys2Proof.Machine

/-- `00EE` (R120). -/
def execRet (s : State) : Result :=
  match s.pop with
  | some (a, t) => .next (t.setPc a)
  | none => raise .stackUnderflow s

/-- `1NNN` (R121). -/
def execJp (nnn : BitVec 12) (s : State) : Result := .next (s.setPc (zext12 nnn))

/-- `2NNN` (R122). -/
def execCall (nnn : BitVec 12) (s : State) : Result :=
  match s.push s.pc with
  | some t => .next (t.setPc (zext12 nnn))
  | none => raise .stackOverflow s

/-- `BNNN` (R123). -/
def execJpV0 (nnn : BitVec 12) (s : State) : Result := .next (s.setPc (zext8 (s.reg 0) + zext12 nnn))

end Sys2Proof.Machine
end

