-- ==== Sys2Proof/Machine/Display.lean ====
section
/-! DEFINITION. Framebuffer clear and the sprite XOR-blitter (45_display.md). -/

namespace Sys2Proof.Machine

/-- `00E0` (R175). -/
def execCls (s : State) : Result := .next (s.setFb Framebuffer.clear)

/-- What drawing the `n` bytes at `I` at the coordinates `(V[x], V[y])` gives: framebuffer and collision (R176). -/
def State.drawn (s : State) (x y : Reg) (n : Nat) : Framebuffer × Bool :=
  drawRows (s.reg x).toNat (s.reg y).toNat (s.mem.readBytes s.base n) (s.fb, false)

/-- `DXYN` (R176): the coordinates are read before `VF` is written; `VF` is always written. -/
def execDrw (x y : Reg) (n : Nat) (s : State) : Result :=
  if outOfMemory s.base n then raise .memoryOutOfBounds s
  else .next ((s.setFb (s.drawn x y n).1).setReg flagReg (flagByte (s.drawn x y n).2))

end Sys2Proof.Machine
end

