-- ==== Sys2Proof/Machine/Index.lean ====
section
/-! DEFINITION. Index register, font address, BCD encoder, bulk store and load (43_index_and_memory.md). -/

namespace Sys2Proof.Machine

/-- Storing `ws` at `I`, `I + 1`, ...: the bound check, then the writes (20_memory.md R62, R69); `I` is kept. -/
def storeAtI (ws : List Byte) (s : State) : Result :=
  if outOfMemory s.base ws.length then raise .memoryOutOfBounds s else .next (s.setMem (s.mem.writeBytes s.base ws))

/-- `ANNN` (R160). -/
def execLdI (nnn : BitVec 12) (s : State) : Result := .next (s.setI (zext12 nnn))

/-- `FX1E` (R161): modulo 65536, no flag. -/
def execAddI (x : Reg) (s : State) : Result := .next (s.setI (s.i + zext8 (s.reg x)))

/-- `FX29` (R162): no memory access. -/
def execLdF (x : Reg) (s : State) : Result := .next (s.setI (glyphAddress (s.reg x)))

/-- `FX33` (R163). -/
def execLdB (x : Reg) (s : State) : Result := storeAtI (bcdDigits (s.reg x)) s

/-- `FX55` (R164): `V[0]` to `V[x]` inclusive. -/
def execStRegs (x : Reg) (s : State) : Result := storeAtI (s.firstRegs (x.val + 1)) s

/-- `FX65` (R165): `V[0]` to `V[x]` inclusive. -/
def execLdRegs (x : Reg) (s : State) : Result :=
  if outOfMemory s.base (x.val + 1) then raise .memoryOutOfBounds s
  else .next { s with v := loadRegs s.mem s.base s.v (x.val + 1) }

end Sys2Proof.Machine
end

