-- ==== Sys2Proof/Machine/Keypad.lean ====
section
/-! DEFINITION. The keypad instructions (46_keypad.md). -/

namespace Sys2Proof.Machine

/-- `EX9E` (R185): the key number is the value `V[x]`. -/
def execSkp (x : Reg) (s : State) : Result :=
  match keyNumbered (s.reg x) with
  | some k => .next (s.skipIf (s.key k))
  | none => raise .keyIndexOutOfRange s

/-- `EXA1` (R186). -/
def execSknp (x : Reg) (s : State) : Result :=
  match keyNumbered (s.reg x) with
  | some k => .next (s.skipIf (!s.key k))
  | none => raise .keyIndexOutOfRange s

/-- `FX0A` (R187): with no key pressed `pc` goes back to this instruction's own address. -/
def execLdVxK (x : Reg) (s : State) : Result :=
  match s.firstKey with
  | some k => .next (s.setReg x (BitVec.ofNat 8 k.val))
  | none => .next (s.setPc (s.pc - 2))

end Sys2Proof.Machine
end

