-- ==== Sys2Proof/Machine/Random.lean ====
section
/-! DEFINITION. The random byte (44_random.md). -/

namespace Sys2Proof.Machine

/-- `CXNN` (R170): the byte drawn is a free value (log 3). -/
def execRnd (x : Reg) (nn : Byte) (s : State) : Result := .next (s.drawRnd.2.setReg x (s.drawRnd.1 &&& nn))

end Sys2Proof.Machine
end

