-- ==== Sys2Proof/Machine/Events.lean ====
section
/-! DEFINITION. The host's events other than `CYCLE` (10_state.md R36; 60_exceptions.md R214). -/

namespace Sys2Proof.Machine

/-- `RESET` (70_reset_and_hazards.md R230 to R232): the state after creation, from any state, with no output; the model's own
fields stay (`RESET` does not make the draws repeat, 44_random.md R170). -/
def State.onReset (s : State) : State :=
  { State.reset with draws := s.draws, inbox := s.inbox, outbox := s.outbox }

/-- `LOAD(bytes)` (20_memory.md R68). -/
def State.onLoad (s : State) (bytes : List Byte) : State :=
  if s.faulted then s
  else if outOfMemory Config.progStart bytes.length then enterFault .memoryOutOfBounds s
  else s.setMem (s.mem.writeBytes Config.progStart bytes)

/-- `SETKEY(k, p)` (46_keypad.md R188). -/
def State.onSetKey (s : State) (k : Key) (pressed : Bool) : State :=
  if s.faulted then s else { s with keys := s.keys.set k pressed }

/-- One decrement toward zero: a timer at 0 stays at 0 (47_timers.md R198). -/
def countDown (b : Byte) : Byte := if b = 0 then 0 else b - 1

/-- The block emits an output. -/
def State.emit (s : State) (o : Output) : State := { s with outbox := s.outbox ++ [o] }

/-- `TICK` (47_timers.md R198): `SOUND_STOP` when `ST` goes from 1 to 0. -/
def State.onTick (s : State) : State :=
  if s.faulted then s
  else
    let t := (s.setDt (countDown s.dt)).setSt (countDown s.st)
    if s.st = 1 then t.emit .soundStop else t

/-- `FBREAD` (45_display.md R178); while faulted its contents are unspecified (10_state.md R32), so free values (log 8). -/
def State.onFbRead (s : State) : State :=
  if s.faulted then
    { s.emit (.frame ((List.range 2048).map (Config.lostFrame s.draws))) with draws := s.draws + 1 }
  else s.emit (.frame s.fb.readOut)

end Sys2Proof.Machine
end

