-- ==== Sys2Proof/Machine/Cycle.lean ====
section
/-! DEFINITION. The operation `CYCLE` (10_state.md R37) and the operation each event stands for. -/

namespace Sys2Proof.Machine

/-- `CYCLE` (10_state.md R37): nothing while faulted; else fetch, decode, execute, in this order (60_exceptions.md R206). -/
def cycle (s : State) : Result :=
  if s.faulted then .next s
  else
    match s.fetch with
    | none => raise .memoryOutOfBounds s
    | some (w, t) =>
      match decodeWord w with
      | .error _ => raise .unrecognizedInstruction t
      | .ok i => exec i t

/-- One event, to completion (10_state.md R36, R38). -/
def present : Event → State → Result
  | .reset, s => .next s.onReset
  | .load bytes, s => .next (s.onLoad bytes)
  | .setKey k pressed, s => .next (s.onSetKey k pressed)
  | .cycle, s => cycle s
  | .tick, s => .next s.onTick
  | .fbRead, s => .next s.onFbRead

/-- The event the host presents next: the first of its coming events, `CYCLE` where none is listed (log 6). -/
def State.nextEvent (s : State) : Event := s.inbox.headD .cycle

/-- The state once that event is taken from the host. -/
def State.takeEvent (s : State) : State := { s with inbox := s.inbox.tail }

/-- Where the fetch of `withFetchWord` reads: `pc`, or the program start where no word can be fetched at `pc`. -/
def State.fetchPlace (s : State) : Word := if outOfMemory s.pc.toNat 2 then 0x0200 else s.pc

end Sys2Proof.Machine
end

