-- ==== Sys2Proof/Machine/Step.lean ====
section
/-! DEFINITION. The step: one event of the host, to completion (10_state.md R36 to R38). -/

namespace Sys2Proof.Machine

/-- One step: the host's next event. -/
def step (s : State) : Host.Outcome State Fault Refusal := present s.nextEvent s.takeEvent

/-- `s` with the word whose low `nbits` bits are `w` stored where the next `step` fetches: at `pc`, the next event a `CYCLE`,
the fault latch clear (log 10). -/
def State.withFetchWord (s : State) (nbits w : Nat) : State :=
  { s with
    pc := s.fetchPlace
    mem := s.mem.writeBytes s.fetchPlace.toNat (bytesOfWord (BitVec.ofNat 16 (w % 2 ^ nbits)))
    faulted := false
    inbox := if s.nextEvent = .cycle then s.inbox else .cycle :: s.inbox }

end Sys2Proof.Machine
end

