-- ==== Sys2Proof/Safety.lean ====
section
/-! DEFINITION. The terms claims use: what stays unchanged, a fault taken, the values of reset, the lit cells of a sprite, and
the invariants. -/

namespace Sys2Proof.Machine

/-- The elements of the state, the two fault elements together (10_state.md R20), and the model's own fields. -/
inductive Part where
  | pc | mem | v | i | stack | sp | keys | dt | st | fb | fault | draws | inbox | outbox
  deriving DecidableEq, Repr

/-- One element is the same in two states; memory as read at every address, the arrays entry by entry. -/
def Part.Same : Part → State → State → Prop
  | .pc, s, t => t.pc = s.pc
  | .mem, s, t => ∀ a, t.mem.read a = s.mem.read a
  | .v, s, t => ∀ r, t.reg r = s.reg r
  | .i, s, t => t.i = s.i
  | .stack, s, t => ∀ j : Fin 16, t.stack[j] = s.stack[j]
  | .sp, s, t => t.sp = s.sp
  | .keys, s, t => ∀ k, t.key k = s.key k
  | .dt, s, t => t.dt = s.dt
  | .st, s, t => t.st = s.st
  | .fb, s, t => ∀ y x, t.fb.pixel y x = s.fb.pixel y x
  | .fault, s, t => t.faulted = s.faulted ∧ t.faultCode = s.faultCode
  | .draws, s, t => t.draws = s.draws
  | .inbox, s, t => t.inbox = s.inbox
  | .outbox, s, t => t.outbox = s.outbox

/-- Every element but the listed ones is the same. -/
def SameBut (ps : List Part) (s t : State) : Prop := ∀ p, p ∉ ps → p.Same s t

/-- Every general register but the listed ones is the same. -/
def RegsSameBut (rs : List Reg) (s t : State) : Prop := ∀ r, r ∉ rs → t.reg r = s.reg r

/-- A fault with this code has been taken from `s` (60_exceptions.md R204). Nothing is said of the elements the rule leaves
unspecified; the host's events and what was emitted are as before. -/
def TakesFault (code : BitVec 3) (s t : State) : Prop :=
  t.faulted = true ∧ t.faultCode = code ∧ t.inbox = s.inbox ∧ t.outbox = s.outbox

/-- The element values of 10_state.md R35, `fault_code` (unspecified there) left out. -/
def HasResetValues (t : State) : Prop :=
  t.pc = 0x0200 ∧ (∀ r, t.reg r = 0) ∧ t.i = 0 ∧ (∀ j : Fin 16, t.stack[j] = 0) ∧ t.sp = 0 ∧ (∀ k, t.key k = false) ∧
    t.dt = 0 ∧ t.st = 0 ∧ (∀ y x, t.fb.pixel y x = false) ∧ t.faulted = false ∧
    (∀ a, a < 80 → t.mem.read a = Config.font a) ∧ (∀ a, 80 ≤ a → a < 4096 → t.mem.read a = 0)

/-- The word that stands at `pc`, high byte first (20_memory.md R65). -/
def State.wordAtPc (s : State) : Word := wordOfBytes (s.mem.read s.pc.toNat) (s.mem.read (s.pc.toNat + 1))

/-- The next event is a `CYCLE` that fetches inside memory. -/
def CanFetch (s : State) : Prop := s.nextEvent = .cycle ∧ s.faulted = false ∧ s.pc.toNat ≤ 4094

/-- The `n`-row sprite at `I`, drawn at `(vx, vy)`, has a set bit for the cell in row `y`, column `x` (45_display.md R176). -/
def Lit (s : State) (vx vy : Byte) (n : Nat) (y : Fin 32) (x : Fin 64) : Prop :=
  ∃ row col : Nat, row < n ∧ col < 8 ∧ (s.mem.read (s.base + row)).getLsbD (7 - col) = true ∧
    (vy.toNat + row) % 32 = y.val ∧ (vx.toNat + col) % 64 = x.val

/-- The code of the fault an instruction raises in the execute stage, none where it raises none (60_exceptions.md R201,
R202). -/
def faultOf : Instr → State → Option (BitVec 3)
  | .ret, s => if s.sp = 0 then some 4 else none
  | .call _, s => if s.sp = 16 then some 3 else none
  | .drw _ _ n, s => if 0 < n ∧ 4095 < s.i.toNat + n - 1 then some 1 else none
  | .ldB _, s => if 4095 < s.i.toNat + 2 then some 1 else none
  | .stRegs x, s | .ldRegs x, s => if 4095 < s.i.toNat + x.val then some 1 else none
  | .skp x, s | .sknp x, s => if 15 < (s.reg x).toNat then some 5 else none
  | .cls, _ | .jp _, _ | .seByte _ _, _ | .sneByte _ _, _ | .seReg _ _, _ | .sneReg _ _, _ | .ldByte _ _, _
  | .addByte _ _, _ | .ldReg _ _, _ | .orReg _ _, _ | .andReg _ _, _ | .xorReg _ _, _ | .addReg _ _, _ | .sub _ _, _
  | .shr _ _, _ | .subn _ _, _ | .shl _ _, _ | .ldI _, _ | .jpV0 _, _ | .rnd _ _, _ | .ldVxDt _, _ | .ldVxK _, _
  | .ldDtVx _, _ | .ldStVx _, _ | .addI _, _ | .ldF _, _ => none

/-- The elements an instruction may write when it does not fault: the write entries of 10_state.md R39, and `draws` for the
byte `CXNN` uses. -/
def writes : Instr → List Part
  | .cls => [.fb]
  | .ret => [.pc, .sp]
  | .jp _ | .jpV0 _ => [.pc]
  | .call _ => [.pc, .stack, .sp]
  | .seByte _ _ | .sneByte _ _ | .seReg _ _ | .sneReg _ _ | .skp _ | .sknp _ => [.pc]
  | .ldByte _ _ | .addByte _ _ | .ldReg _ _ | .orReg _ _ | .andReg _ _ | .xorReg _ _ | .addReg _ _ | .sub _ _
  | .shr _ _ | .subn _ _ | .shl _ _ | .ldVxDt _ | .ldRegs _ => [.v]
  | .ldI _ | .addI _ | .ldF _ => [.i]
  | .rnd _ _ => [.v, .draws]
  | .drw _ _ _ => [.v, .fb]
  | .ldVxK _ => [.v, .pc]
  | .ldDtVx _ => [.dt]
  | .ldStVx _ => [.st]
  | .ldB _ | .stRegs _ => [.mem]

/-- The general registers an instruction may write (10_state.md R24, R39). -/
def writesReg : Instr → Reg → Prop
  | .addReg x _, r | .sub x _, r | .shr x _, r | .subn x _, r | .shl x _, r => r = x ∨ r = flagReg
  | .drw _ _ _, r => r = flagReg
  | .ldByte x _, r | .addByte x _, r | .ldReg x _, r | .orReg x _, r | .andReg x _, r | .xorReg x _, r | .rnd x _, r
  | .ldVxDt x, r | .ldVxK x, r => r = x
  | .ldRegs x, r => r.val ≤ x.val
  | .cls, _ | .ret, _ | .jp _, _ | .call _, _ | .seByte _ _, _ | .sneByte _ _, _ | .seReg _ _, _ | .sneReg _ _, _
  | .ldI _, _ | .jpV0 _, _ | .skp _, _ | .sknp _, _ | .ldDtVx _, _ | .ldStVx _, _ | .addI _, _ | .ldF _, _ | .ldB _, _
  | .stRegs _, _ => False

/-- Memory is in its canonical form. -/
def MemCanonical (s : State) : Prop := s.mem.wf

/-- While not faulted, `pc` is at most 0x10FE and every stack slot at most 4096 (10_state.md R21, R26). -/
def ControlBounded (s : State) : Prop :=
  s.faulted = false → s.pc.toNat ≤ 0x10FE ∧ ∀ j : Fin 16, (s.stack[j]).toNat ≤ 4096

end Sys2Proof.Machine
end

