-- ==== Sys2Proof/Certificates/Slice0/Obligations.lean ====
section
/-! DEFINITION. The statements for the provers. In every instruction statement the state is the one `Fetch()` leaves: `pc` is
past the word. An encoding clause writes the word out digit by digit, first digit first (30_encoding.md R92). -/

open Sys2Proof Sys2Proof.Machine

/-! ### Encoding and the cycle -/

/-- 30_encoding.md, sections 1 and 2: the bytes of every well-formed instruction decode to it, the bytes after it left over. -/
def Obligations.DecodeInvertsEncode : Prop :=
  ∀ (i : Instr) (rest : List Byte), i.wellFormed = true → decode (encode i ++ rest) = .ok (i, rest)

/-- 30_encoding.md, section 2, with the exact match of 92_eei_decisions.md D23 (the spec's own choice, log 14): a word that
decodes is the word of the instruction it decodes to; no bit is dropped and no two words share an instruction. -/
def Obligations.EncodeInvertsDecode : Prop :=
  ∀ (w : Word) (i : Instr), decodeWord w = .ok i → encodeWord i = w ∧ i.wellFormed = true

/-- 30_encoding.md, sections 2 and 3, with the exact match of 92_eei_decisions.md D23 and the sub-opcodes of D22 (the spec's own
choices): a word is an instruction exactly when it fits a row of the opcode map, it fits one row only, that row is the
instruction's, and a word of no row is rejected by name. -/
def Obligations.RecognizedWordsFitOneRow : Prop :=
  ∀ w : Word,
    (∀ i, decodeWord w = .ok i → ∃ r, opcodeMap[i.row]? = some r ∧ w &&& r.1 = r.2) ∧
    ((∃ r ∈ opcodeMap, w &&& r.1 = r.2) → ∃ i, decodeWord w = .ok i) ∧
    ((∀ r ∈ opcodeMap, w &&& r.1 ≠ r.2) → decodeWord w = .error (.unrecognized w)) ∧
    ∀ r r' : Word × Word, r ∈ opcodeMap → r' ∈ opcodeMap → w &&& r.1 = r.2 → w &&& r'.1 = r'.2 → r = r'

/-- Words of 95_test_vectors.md (S1, V-E2, V-E3, P2 to P6) decode as written there; the rejections of 0000 and 8008 rest on the
spec's own D22 and D23 (log 14). That one byte alone is rejected as truncated is the model's own convention (log 16). -/
def Obligations.SpecWordsDecode : Prop :=
  decode [0xD7, 0xA5] = .ok (.drw 7 0xA 5, []) ∧ decode [0x60, 0x05] = .ok (.ldByte 0 0x05, []) ∧
    decode [0x80, 0x14] = .ok (.addReg 0 1, []) ∧ decode [0x22, 0x0E] = .ok (.call 0x20E, []) ∧
    decode [0x31, 0x00] = .ok (.seByte 1 0, []) ∧ decode [0xA3, 0x00] = .ok (.ldI 0x300, []) ∧
    decode [0xF3, 0x33] = .ok (.ldB 3, []) ∧ decode [0xF2, 0x0A] = .ok (.ldVxK 2, []) ∧
    decode [0xE2, 0x9E] = .ok (.skp 2, []) ∧ decode [0x00, 0xEE] = .ok (.ret, []) ∧
    decode [0x00, 0x00] = .error (.unrecognized 0x0000) ∧ decode [0x80, 0x08] = .error (.unrecognized 0x8008) ∧
    decode [0x12] = .error .truncated

/-- 10_state.md, section 5, and 20_memory.md, section 2: where the word at `pc` decodes to `i`, a `CYCLE` step is `exec i` of
the state with `pc` moved past the word. That the host's coming events stand in `inbox` is log 6. -/
def Obligations.StepRunsDecodedInstruction : Prop :=
  ∀ (s : State) (i : Instr), CanFetch s → decodeWord s.wordAtPc = .ok i →
    step s = exec i { s with pc := s.pc + 2, inbox := s.inbox.tail }

/-- 60_exceptions.md, section 1 (order of the checks; the latch is the spec's own D2, the codes D3): a `CYCLE` whose fetch
leaves memory faults with code 1 whatever stands there, one whose word fits no row of the opcode map with code 2. -/
def Obligations.FetchAndDecodeFaults : Prop :=
  ∀ s : State, s.nextEvent = .cycle → s.faulted = false →
    (4094 < s.pc.toNat → ∃ t, step s = .next t ∧ TakesFault 1 s.takeEvent t) ∧
    (s.pc.toNat ≤ 4094 → (∀ r ∈ opcodeMap, s.wordAtPc &&& r.1 ≠ r.2) →
      ∃ t, step s = .next t ∧ TakesFault 2 s.takeEvent t)

/-- 60_exceptions.md, section 1 (the latch is the spec's own D2, the codes D3, the stack faults D4, the key fault D5): every
instruction answers a next state; it takes the fault of its row exactly where the table says, and no other. -/
def Obligations.ExecFaultsExactlyWhereListed : Prop :=
  ∀ (i : Instr) (s : State), ∃ t, exec i s = .next t ∧
    match faultOf i s with
    | some code => TakesFault code s t
    | none => Part.fault.Same s t

/-- 10_state.md, section 2, and 60_exceptions.md, section 1 (the spec's own D2; `outbox` and the free read-out are logs 7 and
8): while faulted no event but `RESET` changes anything; only `FBREAD` answers, a read-out of 2048 cells. -/
def Obligations.FaultedStateAbsorbs : Prop :=
  ∀ s : State, s.faulted = true → s.nextEvent ≠ .reset →
    ∃ t, step s = .next t ∧ SameBut [.draws, .inbox, .outbox] s t ∧ t.inbox = s.inbox.tail ∧
      (s.nextEvent ≠ .fbRead → t.outbox = s.outbox ∧ t.draws = s.draws) ∧
      (s.nextEvent = .fbRead → ∃ p, p.length = 2048 ∧ t.outbox = s.outbox ++ [.frame p])

/-- 70_reset_and_hazards.md, section 1, with 10_state.md, section 4 (`pc`, memory above the font, `I`, `sp` and keys by the
spec's own D16, recovery from a fault by D2): the state after creation has the reset values, and `RESET` gives them from every
state, emitting nothing. `fault_code` is not stated (log 9). -/
def Obligations.ResetRestoresCreation : Prop :=
  HasResetValues State.reset ∧
    ∀ s : State, s.nextEvent = .reset →
      ∃ t, step s = .next t ∧ HasResetValues t ∧ t.inbox = s.inbox.tail ∧ t.outbox = s.outbox

/-! ### Control transfer -/

/-- 40_control_transfer.md, `00EE` (the underflow fault is the spec's own D4, the kept slot D26, the latch D2). -/
def Obligations.RetPopsReturnAddress : Prop :=
  decodeWord 0x00EE = .ok .ret ∧
    ∀ s : State,
      (s.sp = 0 → ∃ t, exec .ret s = .next t ∧ TakesFault 4 s t) ∧
      (∀ j : Fin 16, s.sp.val = j.val + 1 →
        ∃ t, exec .ret s = .next t ∧ t.pc = s.stack[j] ∧ t.sp.val = j.val ∧ SameBut [.pc, .sp] s t)

/-- R121: no fault at the jump; the next fetch has no word when the target is above 4094. -/
def Obligations.JpSetsPc : Prop :=
  ∀ (nnn : BitVec 12) (s : State),
    decodeWord (0x1#4 ++ nnn) = .ok (.jp nnn) ∧
      ∃ t, exec (.jp nnn) s = .next t ∧ t.pc.toNat = nnn.toNat ∧ SameBut [.pc] s t ∧
        (t.fetch = none ↔ 4094 < nnn.toNat)

/-- 40_control_transfer.md, `2NNN` (the overflow fault is the spec's own D4, the latch D2). -/
def Obligations.CallPushesAndJumps : Prop :=
  ∀ (nnn : BitVec 12) (s : State),
    decodeWord (0x2#4 ++ nnn) = .ok (.call nnn) ∧
      (s.sp = 16 → ∃ t, exec (.call nnn) s = .next t ∧ TakesFault 3 s t) ∧
      (∀ j : Fin 16, s.sp.val = j.val →
        ∃ t, exec (.call nnn) s = .next t ∧ t.pc.toNat = nnn.toNat ∧ t.sp.val = j.val + 1 ∧ t.stack[j] = s.pc ∧
          (∀ k : Fin 16, k ≠ j → t.stack[k] = s.stack[k]) ∧ SameBut [.pc, .sp, .stack] s t)

/-- 40_control_transfer.md, `BNNN`: no fault at the jump. That the sum is not reduced and that the next fetch has no word when it
is above 4094 rest on the spec's own D11 (log 15). -/
def Obligations.JpV0AddsRegisterZero : Prop :=
  ∀ (nnn : BitVec 12) (s : State),
    decodeWord (0xB#4 ++ nnn) = .ok (.jpV0 nnn) ∧
      ∃ t, exec (.jpV0 nnn) s = .next t ∧ t.pc.toNat = (s.reg 0).toNat + nnn.toNat ∧ SameBut [.pc] s t ∧
        (t.fetch = none ↔ 4094 < (s.reg 0).toNat + nnn.toNat)

/-! ### Conditional skips -/

/-- R130, R131: for the same operands and state exactly one of the two skips. -/
def Obligations.SeSneByteSkip : Prop :=
  ∀ (x : Reg) (nn : Byte) (s : State),
    decodeWord (0x3#4 ++ BitVec.ofFin (w := 4) x ++ nn) = .ok (.seByte x nn) ∧
    decodeWord (0x4#4 ++ BitVec.ofFin (w := 4) x ++ nn) = .ok (.sneByte x nn) ∧
    (∃ t, exec (.seByte x nn) s = .next t ∧ SameBut [.pc] s t ∧ t.pc = if s.reg x = nn then s.pc + 2 else s.pc) ∧
    (∃ t, exec (.sneByte x nn) s = .next t ∧ SameBut [.pc] s t ∧ t.pc = if s.reg x = nn then s.pc else s.pc + 2)

/-- 41_conditional_skips.md, `5XY0` and `9XY0`; a word of family 5 or 9 whose last digit is not 0 is no instruction (exact
match, the spec's own D23). -/
def Obligations.SeSneRegSkip : Prop :=
  ∀ (x y : Reg) (s : State),
    decodeWord (0x5#4 ++ BitVec.ofFin (w := 4) x ++ BitVec.ofFin (w := 4) y ++ 0x0#4) = .ok (.seReg x y) ∧
    decodeWord (0x9#4 ++ BitVec.ofFin (w := 4) x ++ BitVec.ofFin (w := 4) y ++ 0x0#4) = .ok (.sneReg x y) ∧
    (∀ n : BitVec 4, n ≠ 0 →
      decodeWord (0x5#4 ++ BitVec.ofFin (w := 4) x ++ BitVec.ofFin (w := 4) y ++ n) =
        .error (.unrecognized (0x5#4 ++ BitVec.ofFin (w := 4) x ++ BitVec.ofFin (w := 4) y ++ n)) ∧
      decodeWord (0x9#4 ++ BitVec.ofFin (w := 4) x ++ BitVec.ofFin (w := 4) y ++ n) =
        .error (.unrecognized (0x9#4 ++ BitVec.ofFin (w := 4) x ++ BitVec.ofFin (w := 4) y ++ n))) ∧
    (∃ t, exec (.seReg x y) s = .next t ∧ SameBut [.pc] s t ∧ t.pc = if s.reg x = s.reg y then s.pc + 2 else s.pc) ∧
    (∃ t, exec (.sneReg x y) s = .next t ∧ SameBut [.pc] s t ∧ t.pc = if s.reg x = s.reg y then s.pc else s.pc + 2)

/-! ### Load and ALU -/

/-- R140. -/
def Obligations.LdByteSetsRegister : Prop :=
  ∀ (x : Reg) (nn : Byte) (s : State),
    decodeWord (0x6#4 ++ BitVec.ofFin (w := 4) x ++ nn) = .ok (.ldByte x nn) ∧
      ∃ t, exec (.ldByte x nn) s = .next t ∧ t.reg x = nn ∧ RegsSameBut [x] s t ∧ SameBut [.v] s t

/-- R141: modulo 256, no flag. -/
def Obligations.AddByteWrapsWithoutFlag : Prop :=
  ∀ (x : Reg) (nn : Byte) (s : State),
    decodeWord (0x7#4 ++ BitVec.ofFin (w := 4) x ++ nn) = .ok (.addByte x nn) ∧
      ∃ t, exec (.addByte x nn) s = .next t ∧ (t.reg x).toNat = ((s.reg x).toNat + nn.toNat) % 256 ∧
        RegsSameBut [x] s t ∧ SameBut [.v] s t

/-- R142. -/
def Obligations.LdRegCopiesRegister : Prop :=
  ∀ (x y : Reg) (s : State),
    decodeWord (0x8#4 ++ BitVec.ofFin (w := 4) x ++ BitVec.ofFin (w := 4) y ++ 0x0#4) = .ok (.ldReg x y) ∧
      ∃ t, exec (.ldReg x y) s = .next t ∧ t.reg x = s.reg y ∧ RegsSameBut [x] s t ∧ SameBut [.v] s t

/-- 42_load_and_alu.md, `8XY1` to `8XY3` (sub-opcodes by the spec's own D22): bit by bit, no flag. -/
def Obligations.LogicalOpsWorkBitwise : Prop :=
  ∀ (x y : Reg) (s : State),
    decodeWord (0x8#4 ++ BitVec.ofFin (w := 4) x ++ BitVec.ofFin (w := 4) y ++ 0x1#4) = .ok (.orReg x y) ∧
    decodeWord (0x8#4 ++ BitVec.ofFin (w := 4) x ++ BitVec.ofFin (w := 4) y ++ 0x2#4) = .ok (.andReg x y) ∧
    decodeWord (0x8#4 ++ BitVec.ofFin (w := 4) x ++ BitVec.ofFin (w := 4) y ++ 0x3#4) = .ok (.xorReg x y) ∧
    (∃ t, exec (.orReg x y) s = .next t ∧ RegsSameBut [x] s t ∧ SameBut [.v] s t ∧
      ∀ k, (t.reg x).getLsbD k = ((s.reg x).getLsbD k || (s.reg y).getLsbD k)) ∧
    (∃ t, exec (.andReg x y) s = .next t ∧ RegsSameBut [x] s t ∧ SameBut [.v] s t ∧
      ∀ k, (t.reg x).getLsbD k = ((s.reg x).getLsbD k && (s.reg y).getLsbD k)) ∧
    (∃ t, exec (.xorReg x y) s = .next t ∧ RegsSameBut [x] s t ∧ SameBut [.v] s t ∧
      ∀ k, (t.reg x).getLsbD k = ((s.reg x).getLsbD k ^^ (s.reg y).getLsbD k))

/-- 42_load_and_alu.md, `8XY4` (sub-opcode by the spec's own D22; operands first and flag last by D6, D7). -/
def Obligations.AddRegSetsCarry : Prop :=
  ∀ (x y : Reg) (s : State),
    decodeWord (0x8#4 ++ BitVec.ofFin (w := 4) x ++ BitVec.ofFin (w := 4) y ++ 0x4#4) = .ok (.addReg x y) ∧
      ∃ t, exec (.addReg x y) s = .next t ∧
        (x ≠ 15 → (t.reg x).toNat = ((s.reg x).toNat + (s.reg y).toNat) % 256) ∧
        t.reg 15 = (if 255 < (s.reg x).toNat + (s.reg y).toNat then 1 else 0) ∧
        RegsSameBut [x, 15] s t ∧ SameBut [.v] s t

/-- 42_load_and_alu.md, `8XY5` (sub-opcode by the spec's own D22; operands first and flag last by D6, D7). -/
def Obligations.SubSetsNotBorrow : Prop :=
  ∀ (x y : Reg) (s : State),
    decodeWord (0x8#4 ++ BitVec.ofFin (w := 4) x ++ BitVec.ofFin (w := 4) y ++ 0x5#4) = .ok (.sub x y) ∧
      ∃ t, exec (.sub x y) s = .next t ∧
        (x ≠ 15 → (t.reg x).toNat = ((s.reg x).toNat + 256 - (s.reg y).toNat) % 256) ∧
        t.reg 15 = (if (s.reg y).toNat ≤ (s.reg x).toNat then 1 else 0) ∧
        RegsSameBut [x, 15] s t ∧ SameBut [.v] s t

/-- 42_load_and_alu.md, `8XY6` (sub-opcode by the spec's own D22; flag last by D7; the source stays open, D8, log 4): the
statement holds for both values of `SHIFT_USES_VY`. -/
def Obligations.ShrDropsLowBitIntoFlag : Prop :=
  ∀ (x y : Reg) (s : State) (a : Byte), a = (if Config.shiftUsesVy then s.reg y else s.reg x) →
    decodeWord (0x8#4 ++ BitVec.ofFin (w := 4) x ++ BitVec.ofFin (w := 4) y ++ 0x6#4) = .ok (.shr x y) ∧
      ∃ t, exec (.shr x y) s = .next t ∧ (x ≠ 15 → (t.reg x).toNat = a.toNat / 2) ∧ (t.reg 15).toNat = a.toNat % 2 ∧
        RegsSameBut [x, 15] s t ∧ SameBut [.v] s t

/-- 42_load_and_alu.md, `8XY7` (sub-opcode by the spec's own D22; operands first and flag last by D6, D7). -/
def Obligations.SubnSetsNotBorrow : Prop :=
  ∀ (x y : Reg) (s : State),
    decodeWord (0x8#4 ++ BitVec.ofFin (w := 4) x ++ BitVec.ofFin (w := 4) y ++ 0x7#4) = .ok (.subn x y) ∧
      ∃ t, exec (.subn x y) s = .next t ∧
        (x ≠ 15 → (t.reg x).toNat = ((s.reg y).toNat + 256 - (s.reg x).toNat) % 256) ∧
        t.reg 15 = (if (s.reg x).toNat ≤ (s.reg y).toNat then 1 else 0) ∧
        RegsSameBut [x, 15] s t ∧ SameBut [.v] s t

/-- 42_load_and_alu.md, `8XYE` (sub-opcode by the spec's own D22; flag last by D7; the source stays open, D8, log 4): the
statement holds for both values of `SHIFT_USES_VY`. -/
def Obligations.ShlDropsHighBitIntoFlag : Prop :=
  ∀ (x y : Reg) (s : State) (a : Byte), a = (if Config.shiftUsesVy then s.reg y else s.reg x) →
    decodeWord (0x8#4 ++ BitVec.ofFin (w := 4) x ++ BitVec.ofFin (w := 4) y ++ 0xE#4) = .ok (.shl x y) ∧
      ∃ t, exec (.shl x y) s = .next t ∧ (x ≠ 15 → (t.reg x).toNat = 2 * a.toNat % 256) ∧
        (t.reg 15).toNat = a.toNat / 128 ∧ RegsSameBut [x, 15] s t ∧ SameBut [.v] s t

/-! ### Index register and memory -/

/-- R160. -/
def Obligations.LdISetsIndex : Prop :=
  ∀ (nnn : BitVec 12) (s : State),
    decodeWord (0xA#4 ++ nnn) = .ok (.ldI nnn) ∧
      ∃ t, exec (.ldI nnn) s = .next t ∧ t.i.toNat = nnn.toNat ∧ SameBut [.i] s t

/-- R161: modulo 65536, no flag, no fault. -/
def Obligations.AddIWrapsAtSixteenBits : Prop :=
  ∀ (x : Reg) (s : State),
    decodeWord (0xF#4 ++ BitVec.ofFin (w := 4) x ++ 0x1E#8) = .ok (.addI x) ∧
      ∃ t, exec (.addI x) s = .next t ∧ t.i.toNat = (s.i.toNat + (s.reg x).toNat) % 65536 ∧ SameBut [.i] s t

/-- 43_index_and_memory.md, `FX29` (that the glyphs stand from address 0 in digit order is marked derived there). -/
def Obligations.LdFPointsAtGlyph : Prop :=
  ∀ (x : Reg) (s : State),
    decodeWord (0xF#4 ++ BitVec.ofFin (w := 4) x ++ 0x29#8) = .ok (.ldF x) ∧
      ∃ t, exec (.ldF x) s = .next t ∧ t.i.toNat = 5 * ((s.reg x).toNat % 16) ∧ SameBut [.i] s t

/-- 43_index_and_memory.md, `FX33` (the check before any write is the spec's own D25, the latch D2): the three digits, which
spell the value; every other byte of memory as before; a fault, and nothing else, from `I = 4094` on. -/
def Obligations.LdBStoresDecimalDigits : Prop :=
  ∀ (x : Reg) (s : State), MemCanonical s →
    decodeWord (0xF#4 ++ BitVec.ofFin (w := 4) x ++ 0x33#8) = .ok (.ldB x) ∧
      (4093 < s.base → ∃ t, exec (.ldB x) s = .next t ∧ TakesFault 1 s t) ∧
      (s.base ≤ 4093 → ∃ t h d o, exec (.ldB x) s = .next t ∧
        t.mem.read s.base = h ∧ t.mem.read (s.base + 1) = d ∧ t.mem.read (s.base + 2) = o ∧
        h.toNat = (s.reg x).toNat / 100 ∧ d.toNat = (s.reg x).toNat / 10 % 10 ∧ o.toNat = (s.reg x).toNat % 10 ∧
        100 * h.toNat + 10 * d.toNat + o.toNat = (s.reg x).toNat ∧
        (∀ a, a < s.base ∨ s.base + 2 < a → t.mem.read a = s.mem.read a) ∧ SameBut [.mem] s t)

/-- 43_index_and_memory.md, `FX55` (sequential offsets and `I` kept are the spec's own D9, the latch D2). -/
def Obligations.StRegsStoresRegisters : Prop :=
  ∀ (x : Reg) (s : State), MemCanonical s →
    decodeWord (0xF#4 ++ BitVec.ofFin (w := 4) x ++ 0x55#8) = .ok (.stRegs x) ∧
      (4095 < s.base + x.val → ∃ t, exec (.stRegs x) s = .next t ∧ TakesFault 1 s t) ∧
      (s.base + x.val ≤ 4095 → ∃ t, exec (.stRegs x) s = .next t ∧
        (∀ r : Reg, r ≤ x → t.mem.read (s.base + r.val) = s.reg r) ∧
        (∀ a, a < s.base ∨ s.base + x.val < a → t.mem.read a = s.mem.read a) ∧ SameBut [.mem] s t)

/-- 43_index_and_memory.md, `FX65` (sequential offsets and `I` kept are the spec's own D9, the latch D2). -/
def Obligations.LdRegsLoadsRegisters : Prop :=
  ∀ (x : Reg) (s : State),
    decodeWord (0xF#4 ++ BitVec.ofFin (w := 4) x ++ 0x65#8) = .ok (.ldRegs x) ∧
      (4095 < s.base + x.val → ∃ t, exec (.ldRegs x) s = .next t ∧ TakesFault 1 s t) ∧
      (s.base + x.val ≤ 4095 → ∃ t, exec (.ldRegs x) s = .next t ∧
        (∀ r : Reg, r ≤ x → t.reg r = s.mem.read (s.base + r.val)) ∧ (∀ r : Reg, x < r → t.reg r = s.reg r) ∧
        SameBut [.v] s t)

/-- 43_index_and_memory.md, `FX55` and `FX65` (D9): registers stored, then changed at will, are loaded back. -/
def Obligations.StoredRegistersLoadBack : Prop :=
  ∀ (x : Reg) (s : State) (v : Vector Byte 16), MemCanonical s → s.base + x.val ≤ 4095 →
    ∃ t u, exec (.stRegs x) s = .next t ∧ exec (.ldRegs x) { t with v := v } = .next u ∧
      (∀ r : Reg, r ≤ x → u.reg r = s.reg r) ∧ (∀ r : Reg, x < r → u.reg r = v[r])

/-- 20_memory.md, section 5: two neighbouring registers `FX55` stored are the word the next fetch from their place reads. -/
def Obligations.StoreIsSeenByNextFetch : Prop :=
  ∀ (x : Reg) (k : Nat) (s : State) (a : Word) (hk : k + 1 < 16), MemCanonical s → s.base + x.val ≤ 4095 → k < x.val →
    a.toNat = s.base + k →
    ∃ t u, exec (.stRegs x) s = .next t ∧
      (t.setPc a).fetch = some (s.reg ⟨k, by omega⟩ ++ s.reg ⟨k + 1, hk⟩, u) ∧ u.pc = a + 2

/-! ### Random byte -/

/-- 44_random.md, `CXNN` (the draw is free, D15, log 3): the statement holds for every byte the environment may supply; the
draw is used up. -/
def Obligations.RndMasksTheDraw : Prop :=
  ∀ (x : Reg) (nn : Byte) (s : State),
    decodeWord (0xC#4 ++ BitVec.ofFin (w := 4) x ++ nn) = .ok (.rnd x nn) ∧
      ∃ t, exec (.rnd x nn) s = .next t ∧ t.reg x = Config.rnd s.draws &&& nn ∧ (t.reg x).toNat ≤ nn.toNat ∧
        (∀ k, nn.getLsbD k = false → (t.reg x).getLsbD k = false) ∧ t.draws = s.draws + 1 ∧
        RegsSameBut [x] s t ∧ SameBut [.v, .draws] s t

/-! ### Display -/

/-- R175. -/
def Obligations.ClsClearsFramebuffer : Prop :=
  decodeWord 0x00E0 = .ok .cls ∧
    ∀ s : State, ∃ t, exec .cls s = .next t ∧ (∀ y x, t.fb.pixel y x = false) ∧ SameBut [.fb] s t

/-- 45_display.md, `DXYN` (bit 7 leftmost and row-major cells are the spec's own D10, coordinates read first D6, no row D29,
the latch D2): each cell is XORed with the sprite's bit for it, `VF` tells whether a set cell was cleared. -/
def Obligations.DrwXorsSprite : Prop :=
  ∀ (x y : Reg) (n : Nat) (s : State), n ≤ 15 →
    decodeWord (0xD#4 ++ BitVec.ofFin (w := 4) x ++ BitVec.ofFin (w := 4) y ++ BitVec.ofNat 4 n) = .ok (.drw x y n) ∧
      (0 < n ∧ 4095 < s.base + n - 1 → ∃ t, exec (.drw x y n) s = .next t ∧ TakesFault 1 s t) ∧
      (n = 0 ∨ s.base + n - 1 ≤ 4095 → ∃ t, exec (.drw x y n) s = .next t ∧
        (∀ py px, Lit s (s.reg x) (s.reg y) n py px → t.fb.pixel py px = !s.fb.pixel py px) ∧
        (∀ py px, ¬ Lit s (s.reg x) (s.reg y) n py px → t.fb.pixel py px = s.fb.pixel py px) ∧
        ((∃ py px, Lit s (s.reg x) (s.reg y) n py px ∧ s.fb.pixel py px = true) → t.reg 15 = 1) ∧
        ((∀ py px, Lit s (s.reg x) (s.reg y) n py px → s.fb.pixel py px = false) → t.reg 15 = 0) ∧
        RegsSameBut [15] s t ∧ SameBut [.v, .fb] s t)

/-- 45_display.md, `DXYN`, corner case (f), coordinates outside `VF`: drawing twice restores every cell, and the second draw
reports a collision exactly when the first one set a cell. -/
def Obligations.DrawingTwiceRestores : Prop :=
  ∀ (x y : Reg) (n : Nat) (s : State), n ≤ 15 → x ≠ 15 → y ≠ 15 → (n = 0 ∨ s.base + n - 1 ≤ 4095) →
    ∃ t u, exec (.drw x y n) s = .next t ∧ exec (.drw x y n) t = .next u ∧
      (∀ py px, u.fb.pixel py px = s.fb.pixel py px) ∧
      (u.reg 15 = 1 ↔ ∃ py px, Lit s (s.reg x) (s.reg y) n py px ∧ s.fb.pixel py px = false)

/-! ### Keypad -/

/-- 46_keypad.md, `EX9E` (the fault above 15 is the spec's own D5, the latch D2). -/
def Obligations.SkpSkipsOnPressedKey : Prop :=
  ∀ (x : Reg) (s : State),
    decodeWord (0xE#4 ++ BitVec.ofFin (w := 4) x ++ 0x9E#8) = .ok (.skp x) ∧
      (15 < (s.reg x).toNat → ∃ t, exec (.skp x) s = .next t ∧ TakesFault 5 s t) ∧
      (∀ k : Key, (s.reg x).toNat = k.val →
        ∃ t, exec (.skp x) s = .next t ∧ SameBut [.pc] s t ∧ t.pc = if s.key k = true then s.pc + 2 else s.pc)

/-- 46_keypad.md, `EXA1` (the fault above 15 is the spec's own D5, the latch D2). -/
def Obligations.SknpSkipsOnReleasedKey : Prop :=
  ∀ (x : Reg) (s : State),
    decodeWord (0xE#4 ++ BitVec.ofFin (w := 4) x ++ 0xA1#8) = .ok (.sknp x) ∧
      (15 < (s.reg x).toNat → ∃ t, exec (.sknp x) s = .next t ∧ TakesFault 5 s t) ∧
      (∀ k : Key, (s.reg x).toNat = k.val →
        ∃ t, exec (.sknp x) s = .next t ∧ SameBut [.pc] s t ∧ t.pc = if s.key k = true then s.pc else s.pc + 2)

/-- 46_keypad.md, `FX0A` (level-sensitive, the spec's own D24): the least pressed key and on; with none pressed `pc` back. -/
def Obligations.KeyWaitTakesLeastKey : Prop :=
  ∀ (x : Reg) (s : State),
    decodeWord (0xF#4 ++ BitVec.ofFin (w := 4) x ++ 0x0A#8) = .ok (.ldVxK x) ∧
      (∀ k : Key, s.key k = true → (∀ j : Key, j < k → s.key j = false) →
        ∃ t, exec (.ldVxK x) s = .next t ∧ (t.reg x).toNat = k.val ∧ RegsSameBut [x] s t ∧ SameBut [.v] s t) ∧
      ((∀ k : Key, s.key k = false) → ∃ t, exec (.ldVxK x) s = .next t ∧ t.pc = s.pc - 2 ∧ SameBut [.pc] s t)

/-- 46_keypad.md, `FX0A`, corner cases (a) and (b) (level-sensitive, the spec's own D24): with no key pressed any number of
cycles leaves the whole state as it is. That the steps from an empty inbox are cycles is the model's own choice (log 6). -/
def Obligations.KeyWaitStalls : Prop :=
  ∀ (x : Reg) (s : State) (n : Nat), CanFetch s → s.inbox = [] → decodeWord s.wordAtPc = .ok (.ldVxK x) →
    (∀ k : Key, s.key k = false) → Host.Core.run Sys2Proof.core n s = .next s

/-! ### Timers -/

/-- R195. -/
def Obligations.LdVxDtReadsDelayTimer : Prop :=
  ∀ (x : Reg) (s : State),
    decodeWord (0xF#4 ++ BitVec.ofFin (w := 4) x ++ 0x07#8) = .ok (.ldVxDt x) ∧
      ∃ t, exec (.ldVxDt x) s = .next t ∧ t.reg x = s.dt ∧ RegsSameBut [x] s t ∧ SameBut [.v] s t

/-- R196, R197: no output. -/
def Obligations.TimersAreSetFromRegister : Prop :=
  ∀ (x : Reg) (s : State),
    decodeWord (0xF#4 ++ BitVec.ofFin (w := 4) x ++ 0x15#8) = .ok (.ldDtVx x) ∧
    decodeWord (0xF#4 ++ BitVec.ofFin (w := 4) x ++ 0x18#8) = .ok (.ldStVx x) ∧
    (∃ t, exec (.ldDtVx x) s = .next t ∧ t.dt = s.reg x ∧ SameBut [.dt] s t) ∧
    (∃ t, exec (.ldStVx x) s = .next t ∧ t.st = s.reg x ∧ SameBut [.st] s t)

/-! ### Host events -/

/-- 20_memory.md, section 3 (between any two operations, the oversize fault: the spec's own D17; the latch D2). -/
def Obligations.LoadCopiesToProgramStart : Prop :=
  ∀ (bytes : List Byte) (s : State), MemCanonical s → s.faulted = false → s.nextEvent = .load bytes →
    (3584 < bytes.length → ∃ t, step s = .next t ∧ TakesFault 1 s.takeEvent t) ∧
    (bytes.length ≤ 3584 → ∃ t, step s = .next t ∧
      (∀ (k : Nat) (h : k < bytes.length), t.mem.read (0x200 + k) = bytes[k]) ∧
      (∀ a, a < 0x200 ∨ 0x200 + bytes.length ≤ a → t.mem.read a = s.mem.read a) ∧
      SameBut [.mem] s.takeEvent t)

/-- 46_keypad.md, `SETKEY` (a key number above 15 cannot be presented, the spec's own D18). -/
def Obligations.SetKeyChangesOneKey : Prop :=
  ∀ (k : Key) (p : Bool) (s : State), s.faulted = false → s.nextEvent = .setKey k p →
    ∃ t, step s = .next t ∧ t.key k = p ∧ (∀ j : Key, j ≠ k → t.key j = s.key j) ∧ SameBut [.keys] s.takeEvent t

/-- 47_timers.md, `TICK` (that outputs stand in `outbox` is log 7): each timer counts toward zero and stays there,
`SOUND_STOP` exactly on `ST` going from 1 to 0, nothing else changes. -/
def Obligations.TickCountsTimersDown : Prop :=
  ∀ s : State, s.faulted = false → s.nextEvent = .tick →
    ∃ t, step s = .next t ∧ t.dt.toNat = s.dt.toNat - 1 ∧ t.st.toNat = s.st.toNat - 1 ∧
      (s.st = 1 → t.outbox = s.outbox ++ [.soundStop]) ∧ (s.st ≠ 1 → t.outbox = s.outbox) ∧
      SameBut [.dt, .st, .outbox] s.takeEvent t

/-- 47_timers.md, `TICK`, as 95_test_vectors.md V-T2 counts it: of the `ST` ticks from a running sound timer exactly the last
emits `SOUND_STOP`. -/
def Obligations.SoundStopOnTheLastTick : Prop :=
  ∀ (s : State) (n : Nat), s.faulted = false → 1 ≤ n → s.st.toNat = n → s.inbox = List.replicate n .tick →
    (∀ k, k < n → ∃ t, Host.Core.run Sys2Proof.core k s = .next t ∧ t.st.toNat = n - k ∧ t.outbox = s.outbox) ∧
    ∃ t, Host.Core.run Sys2Proof.core n s = .next t ∧ t.st = 0 ∧ t.outbox = s.outbox ++ [.soundStop]

/-- 45_display.md, `FBREAD` (that outputs stand in `outbox` is log 7): 2048 cells, element `64*y + x` being `fb[y][x]`; no
element of the state changes. -/
def Obligations.FbReadIsRowMajor : Prop :=
  ∀ s : State, s.faulted = false → s.nextEvent = .fbRead →
    ∃ t p, step s = .next t ∧ t.outbox = s.outbox ++ [.frame p] ∧ p.length = 2048 ∧
      (∀ (y : Fin 32) (x : Fin 64), p[64 * y.val + x.val]? = some (s.fb.pixel y x)) ∧
      SameBut [.outbox] s.takeEvent t

/-! ### Whole machine -/

/-- 10_state.md, the read and write matrix: an instruction that does not fault changes only the elements and the registers of
its row. -/
def Obligations.ExecWritesOnlyItsRow : Prop :=
  ∀ (i : Instr) (s t : State), faultOf i s = none → exec i s = .next t →
    SameBut (writes i) s t ∧ ∀ r, ¬ writesReg i r → t.reg r = s.reg r

/-- 10_state.md, `ST`: no instruction reads it. Two runs of an instruction that does not fault, from states that differ in `ST`
alone, end in states that differ in `ST` alone. -/
def Obligations.NoInstructionReadsSoundTimer : Prop :=
  ∀ (i : Instr) (s : State) (b : Byte), faultOf i s = none → ∃ t u, exec i s = .next t ∧ exec i { s with st := b } = .next u ∧
    u = { t with st := u.st }

/-- 40_control_transfer.md, `2NNN` and `00EE`: a return after a call, fetched from anywhere, resumes after the call at the same
depth; only the slot the call wrote is left changed (the kept slot is the spec's own D26). -/
def Obligations.ReturnUndoesCall : Prop :=
  ∀ (nnn : BitVec 12) (s : State) (a : Word), s.sp.val < 16 →
    ∃ t u, exec (.call nnn) s = .next t ∧ exec .ret (t.setPc a) = .next u ∧ u.pc = s.pc ∧ u.sp = s.sp ∧
      SameBut [.stack] s u ∧ ∀ j : Fin 16, j.val ≠ s.sp.val → u.stack[j] = s.stack[j]

/-- 70_reset_and_hazards.md, section 5 (a resting state, the spec's own D20): a jump to itself stays for any number of cycles.
That the steps from an empty inbox are cycles is the model's own choice (log 6). -/
def Obligations.JumpToSelfRests : Prop :=
  ∀ (nnn : BitVec 12) (s : State) (n : Nat), CanFetch s → s.inbox = [] → decodeWord s.wordAtPc = .ok (.jp nnn) →
    s.pc.toNat = nnn.toNat → Host.Core.run Sys2Proof.core n s = .next s

/-- 20_memory.md, sections 1 and 2: every step, of every event, keeps the memory inside its 4096 cells and in its canonical
form (the form is the model's own, log 5). -/
def Obligations.StepKeepsMemoryCanonical : Prop :=
  ∀ s t : State, MemCanonical s → step s = .next t → MemCanonical t

/-- 10_state.md, `pc`, whose bounds are marked derived there: every step keeps `pc` at most 0x10FE and every stack slot at
most 4096, while not faulted. -/
def Obligations.StepKeepsControlBounded : Prop :=
  ∀ s t : State, ControlBounded s → step s = .next t → ControlBounded t

/-- The invariants hold at reset: the memory form, which is the model's own (log 5), and the bounds of 10_state.md, `pc` and
`stack`, at the reset values of 70_reset_and_hazards.md, section 1 (`pc` and memory by the spec's own D16). -/
def Obligations.ResetMeetsInvariants : Prop := MemCanonical State.reset ∧ ControlBounded State.reset
end

