-- ==== Sys2Proof/Laws/Decode.lean ====
section
/-! SUPPORT. Every field of every packed word (30_encoding.md R91, R92), and the bytes of a word. -/

namespace Sys2Proof

/-- The four digits of a word, first digit first. -/
def digits (a b c d : BitVec 4) : Word := a ++ b ++ c ++ d

theorem digits_fst (a b c d : BitVec 4) : (digits a b c d).extractLsb' 12 4 = a := by
  ext i hi; simp [digits]; grind

theorem digits_snd (a b c d : BitVec 4) : (digits a b c d).extractLsb' 8 4 = b := by
  ext i hi; simp [digits]; grind

theorem digits_trd (a b c d : BitVec 4) : (digits a b c d).extractLsb' 4 4 = c := by
  ext i hi; simp [digits]; grind

theorem digits_fth (a b c d : BitVec 4) : (digits a b c d).extractLsb' 0 4 = d := by
  ext i hi; simp [digits]; grind

/-- Every word is its four digits. -/
theorem digits_eta (w : Word) :
    digits (w.extractLsb' 12 4) (w.extractLsb' 8 4) (w.extractLsb' 4 4) (w.extractLsb' 0 4) = w := by
  ext i hi; simp [digits]; grind

/-- Masking works digit by digit. -/
theorem digits_and (a b c d e f g h : BitVec 4) :
    digits a b c d &&& digits e f g h = digits (a &&& e) (b &&& f) (c &&& g) (d &&& h) := by
  ext i hi; simp [digits]; grind

/-- Two words are equal when their digits are. -/
theorem digits_inj {a b c d e f g h : BitVec 4} :
    digits a b c d = digits e f g h ↔ a = e ∧ b = f ∧ c = g ∧ d = h := by
  refine ⟨fun H => ⟨?_, ?_, ?_, ?_⟩, fun ⟨h1, h2, h3, h4⟩ => by rw [h1, h2, h3, h4]⟩
  · rw [← digits_fst a b c d, H, digits_fst]
  · rw [← digits_snd a b c d, H, digits_snd]
  · rw [← digits_trd a b c d, H, digits_trd]
  · rw [← digits_fth a b c d, H, digits_fth]

/-- A byte as its two digits. -/
theorem nn_digits (nn : Byte) : nn.extractLsb' 4 4 ++ nn.extractLsb' 0 4 = nn := by
  ext i hi; simp; grind

theorem packXYN_eq (op : BitVec 4) (x y : Reg) (n : BitVec 4) :
    packXYN op x y n = digits op (BitVec.ofFin (w := 4) x) (BitVec.ofFin (w := 4) y) n := rfl

theorem packXNN_eq (op : BitVec 4) (x : Reg) (nn : Byte) :
    packXNN op x nn = digits op (BitVec.ofFin (w := 4) x) (nn.extractLsb' 4 4) (nn.extractLsb' 0 4) := by
  unfold packXNN digits
  generalize BitVec.ofFin (w := 4) x = b
  ext i hi; simp; grind

theorem packNNN_eq (op : BitVec 4) (nnn : BitVec 12) :
    packNNN op nnn = digits op (nnn.extractLsb' 8 4) (nnn.extractLsb' 4 4) (nnn.extractLsb' 0 4) := by
  unfold packNNN digits
  ext i hi; simp; grind

@[simp] theorem fieldOp_digits (a b c d : BitVec 4) : fieldOp (digits a b c d) = a := digits_fst a b c d

@[simp] theorem fieldX_digits (a b c d : BitVec 4) : fieldX (digits a b c d) = b.toFin :=
  congrArg BitVec.toFin (digits_snd a b c d)

@[simp] theorem fieldY_digits (a b c d : BitVec 4) : fieldY (digits a b c d) = c.toFin :=
  congrArg BitVec.toFin (digits_trd a b c d)

@[simp] theorem fieldN_digits (a b c d : BitVec 4) : fieldN (digits a b c d) = d := digits_fth a b c d

@[simp] theorem fieldNN_digits (a b c d : BitVec 4) : fieldNN (digits a b c d) = c ++ d := by
  unfold fieldNN digits
  ext i hi; simp; grind

@[simp] theorem fieldNNN_digits (a b c d : BitVec 4) : fieldNNN (digits a b c d) = b ++ c ++ d := by
  unfold fieldNNN digits
  ext i hi; simp; grind

@[simp] theorem fieldOp_packNNN (op : BitVec 4) (nnn : BitVec 12) : fieldOp (packNNN op nnn) = op := by
  simp [packNNN_eq]

@[simp] theorem fieldNNN_packNNN (op : BitVec 4) (nnn : BitVec 12) : fieldNNN (packNNN op nnn) = nnn := by
  rw [packNNN_eq, fieldNNN_digits]
  ext i hi; simp; grind

@[simp] theorem fieldOp_packXNN (op : BitVec 4) (x : Reg) (nn : Byte) : fieldOp (packXNN op x nn) = op := by
  simp [packXNN_eq]

@[simp] theorem fieldX_packXNN (op : BitVec 4) (x : Reg) (nn : Byte) : fieldX (packXNN op x nn) = x := by
  rw [packXNN_eq, fieldX_digits]

@[simp] theorem fieldNN_packXNN (op : BitVec 4) (x : Reg) (nn : Byte) : fieldNN (packXNN op x nn) = nn := by
  rw [packXNN_eq, fieldNN_digits, nn_digits]

@[simp] theorem fieldOp_packXYN (op : BitVec 4) (x y : Reg) (n : BitVec 4) : fieldOp (packXYN op x y n) = op := by
  rw [packXYN_eq, fieldOp_digits]

@[simp] theorem fieldX_packXYN (op : BitVec 4) (x y : Reg) (n : BitVec 4) : fieldX (packXYN op x y n) = x := by
  rw [packXYN_eq, fieldX_digits]

@[simp] theorem fieldY_packXYN (op : BitVec 4) (x y : Reg) (n : BitVec 4) : fieldY (packXYN op x y n) = y := by
  rw [packXYN_eq, fieldY_digits]

@[simp] theorem fieldN_packXYN (op : BitVec 4) (x y : Reg) (n : BitVec 4) : fieldN (packXYN op x y n) = n := by
  rw [packXYN_eq, fieldN_digits]

/-- The fields `OP`, `NNN` are the whole word. -/
theorem packNNN_fields (w : Word) : packNNN (fieldOp w) (fieldNNN w) = w := by
  rw [← digits_eta w, fieldOp_digits, fieldNNN_digits]
  unfold packNNN digits
  ext i hi; simp; grind

/-- The fields `OP`, `X`, `NN` are the whole word. -/
theorem packXNN_fields (w : Word) : packXNN (fieldOp w) (fieldX w) (fieldNN w) = w := by
  rw [← digits_eta w, fieldOp_digits, fieldX_digits, fieldNN_digits, packXNN_eq]
  generalize w.extractLsb' 12 4 = a, w.extractLsb' 8 4 = b, w.extractLsb' 4 4 = c, w.extractLsb' 0 4 = d
  refine digits_inj.2 ⟨rfl, rfl, ?_, ?_⟩ <;> · ext i hi; simp; try grind

/-- The fields `OP`, `X`, `Y`, `N` are the whole word. -/
theorem packXYN_fields (w : Word) : packXYN (fieldOp w) (fieldX w) (fieldY w) (fieldN w) = w := by
  rw [← digits_eta w, fieldOp_digits, fieldX_digits, fieldY_digits, fieldN_digits]
  rfl

/-- A stored word read back, high byte first. -/
@[simp] theorem wordOfBytes_highByte_lowByte (w : Word) : wordOfBytes (highByte w) (lowByte w) = w := by
  ext i hi; simp [wordOfBytes, highByte, lowByte]; grind

/-- Decoding the stored bytes of a word decodes the word. -/
theorem decode_bytesOfWord (w : Word) (rest : List Byte) :
    decode (bytesOfWord w ++ rest) = (decodeWord w).map (·, rest) := by
  simp [bytesOfWord, decode]

end Sys2Proof
end

