-- ==== Sys2Proof/Laws/Memory.lean ====
section
/-! SUPPORT. Memory: what a read gives after a write, and that every memory operation keeps the canonical form. -/

namespace Sys2Proof.Machine

theorem Memory.wf_nil : Memory.wf [] := ⟨List.Pairwise.nil, by simp⟩

theorem Memory.wf_tail {c : Host.Cell} {m : Memory} (h : Memory.wf (c :: m)) : Memory.wf m :=
  ⟨(List.pairwise_cons.1 h.1).2, fun d hd => h.2 d (List.mem_cons_of_mem _ hd)⟩

/-- Below every listed address a memory reads as unlisted. -/
theorem Memory.read_below {m : Memory} {a : Nat} (h : ∀ c ∈ m, a < c.1) : Memory.read m a = unlisted a := by
  cases m with
  | nil => rfl
  | cons c m => simp [Memory.read, h c (by simp)]

/-- In a canonical memory nothing before a cell's address is listed behind it. -/
theorem Memory.read_tail_le {b : Nat} {u : Byte} {m : Memory} (h : Memory.wf ((b, u) :: m)) {a : Nat} (hab : a ≤ b) :
    Memory.read m a = unlisted a :=
  Memory.read_below fun c hc => Nat.lt_of_le_of_lt hab ((List.pairwise_cons.1 h.1).1 c hc)

/-- A read after a write: the byte written at its address, every other byte as before. -/
theorem Memory.read_write {m : Memory} (h : Memory.wf m) (a c : Nat) (w : Byte) :
    Memory.read (Memory.write m a w) c = if c = a then w else Memory.read m c := by
  induction m with
  | nil =>
    by_cases hw : w = unlisted a
    · by_cases hc : c = a <;> simp [Memory.write, Memory.read, hw, hc]
    · by_cases hc : c = a
      · simp [Memory.write, Memory.read, hw, hc]
      · simp [Memory.write, Memory.read, hw, hc]
  | cons p m ih =>
    obtain ⟨b, u⟩ := p
    have ih := ih (Memory.wf_tail h)
    have htail := fun {a} (hab : a ≤ b) => Memory.read_tail_le (a := a) h hab
    rcases Nat.lt_trichotomy a b with hab | rfl | hab
    · by_cases hw : w = unlisted a
      · by_cases hc : c = a
        · subst hc; simp [Memory.write, Memory.read, hab, hw]
        · simp [Memory.write, hab, hw, hc]
      · rcases Nat.lt_trichotomy c a with hc | rfl | hc
        · have : c < b := Nat.lt_trans hc hab
          simp [Memory.write, Memory.read, hab, hw, hc, this, Nat.ne_of_lt hc]
        · simp [Memory.write, Memory.read, hab, hw]
        · simp [Memory.write, Memory.read, hab, hw, Nat.ne_of_gt hc, Nat.not_lt.2 (Nat.le_of_lt hc)]
    · by_cases hw : w = unlisted a
      · rcases Nat.lt_trichotomy c a with hc | rfl | hc
        · simp [Memory.write, Memory.read, hw, hc, Nat.ne_of_lt hc, htail (Nat.le_of_lt hc)]
        · simp [Memory.write, hw, htail (Nat.le_refl _)]
        · simp [Memory.write, Memory.read, hw, Nat.ne_of_gt hc, Nat.not_lt.2 (Nat.le_of_lt hc)]
      · rcases Nat.lt_trichotomy c a with hc | rfl | hc
        · simp [Memory.write, Memory.read, hw, hc, Nat.ne_of_lt hc]
        · simp [Memory.write, Memory.read, hw]
        · simp [Memory.write, Memory.read, hw, Nat.ne_of_gt hc, Nat.not_lt.2 (Nat.le_of_lt hc)]
    · have hne : a ≠ b := Nat.ne_of_gt hab
      have hnl : ¬ a < b := Nat.not_lt.2 (Nat.le_of_lt hab)
      simp only [Memory.write, hnl, hne, if_false, Memory.read, ih]
      rcases Nat.lt_trichotomy c b with hc | rfl | hc
      · have : c ≠ a := by omega
        simp [hc, this]
      · have : c ≠ a := by omega
        simp [this]
      · simp [Nat.ne_of_gt hc, Nat.not_lt.2 (Nat.le_of_lt hc)]

/-- Every listed address of a written memory is the one written or was listed. -/
theorem Memory.mem_write {m : Memory} {a : Nat} {w : Byte} {c : Host.Cell} (h : c ∈ Memory.write m a w) :
    (c = (a, w) ∧ w ≠ unlisted a) ∨ c ∈ m := by
  induction m with
  | nil =>
    by_cases hw : w = unlisted a
    · simp [Memory.write, hw] at h
    · simp [Memory.write, hw] at h
      exact .inl ⟨h, hw⟩
  | cons p m ih =>
    obtain ⟨b, u⟩ := p
    simp only [Memory.write] at h
    split at h
    · split at h
      · exact .inr h
      · rename_i hw
        rcases List.mem_cons.1 h with h | h
        · exact .inl ⟨h, hw⟩
        · exact .inr h
    · split at h
      · split at h
        · exact .inr (List.mem_cons_of_mem _ h)
        · rename_i hw
          rcases List.mem_cons.1 h with h | h
          · exact .inl ⟨h, hw⟩
          · exact .inr (List.mem_cons_of_mem _ h)
      · rcases List.mem_cons.1 h with h | h
        · exact .inr (h ▸ List.mem_cons_self)
        · rcases ih h with h | h
          · exact .inl h
          · exact .inr (List.mem_cons_of_mem _ h)

/-- A write inside memory keeps the canonical form. -/
theorem Memory.wf_write {m : Memory} (h : Memory.wf m) {a : Nat} (ha : a < Config.memSize) (w : Byte) :
    Memory.wf (Memory.write m a w) := by
  refine ⟨?_, fun c hc => ?_⟩
  · induction m with
    | nil => by_cases hw : w = unlisted a <;> simp [Memory.write, hw]
    | cons p m ih =>
      obtain ⟨b, u⟩ := p
      have ht := Memory.wf_tail h
      have hb : ∀ c ∈ m, b < c.1 := (List.pairwise_cons.1 h.1).1
      simp only [Memory.write]
      split
      · rename_i hab
        split
        · exact h.1
        · refine List.pairwise_cons.2 ⟨fun c hc => ?_, h.1⟩
          rcases List.mem_cons.1 hc with rfl | hc
          · exact hab
          · exact Nat.lt_trans hab (hb c hc)
      · split
        · rename_i hab
          split
          · exact ht.1
          · exact List.pairwise_cons.2 ⟨fun c hc => hab ▸ hb c hc, ht.1⟩
        · refine List.pairwise_cons.2 ⟨fun c hc => ?_, ih ht⟩
          rcases Memory.mem_write hc with ⟨rfl, -⟩ | hc
          · show b < a
            omega
          · exact hb c hc
  · rcases Memory.mem_write hc with ⟨rfl, hw⟩ | hc
    · exact ⟨ha, hw⟩
    · exact h.2 c hc

/-- Consecutive writes inside memory keep the canonical form. -/
theorem Memory.wf_writeBytes {m : Memory} (h : Memory.wf m) {a : Nat} {ws : List Byte} (ha : a + ws.length ≤ Config.memSize) :
    Memory.wf (Memory.writeBytes m a ws) := by
  induction ws generalizing m a with
  | nil => exact h
  | cons w ws ih =>
    simp only [List.length_cons] at ha
    exact ih (Memory.wf_write h (by omega) w) (by omega)

/-- A read after consecutive writes inside memory. -/
theorem Memory.read_writeBytes {m : Memory} (h : Memory.wf m) {a : Nat} {ws : List Byte}
    (ha : a + ws.length ≤ Config.memSize) (c : Nat) :
    Memory.read (Memory.writeBytes m a ws) c = if c < a then Memory.read m c else ws[c - a]?.getD (Memory.read m c) := by
  induction ws generalizing m a with
  | nil => simp [Memory.writeBytes]
  | cons w ws ih =>
    simp only [List.length_cons] at ha
    rw [Memory.writeBytes, ih (Memory.wf_write h (by omega) w) (by omega), Memory.read_write h]
    rcases Nat.lt_trichotomy c a with hc | rfl | hc
    · simp [hc, show c < a + 1 by omega, show c ≠ a by omega]
    · simp
    · obtain ⟨k, rfl⟩ : ∃ k, c = a + 1 + k := ⟨c - (a + 1), by omega⟩
      rw [if_neg (by omega), if_neg (by omega), if_neg (by omega), show a + 1 + k - (a + 1) = k by omega,
        show a + 1 + k - a = k + 1 by omega, List.getElem?_cons_succ]

/-- The memory made of given bytes is canonical. -/
theorem Memory.wf_tabulate (f : Nat → Byte) : Memory.wf (Memory.tabulate f) := by
  unfold Memory.tabulate
  refine ⟨?_, fun c hc => ?_⟩
  · refine List.Pairwise.filter _ (List.pairwise_map.2 ?_)
    exact List.pairwise_lt_range
  · simp only [List.mem_filter, List.mem_map, List.mem_range, decide_eq_true_eq] at hc
    obtain ⟨⟨a, ha, rfl⟩, hne⟩ := hc
    exact ⟨ha, hne⟩

@[simp] theorem Memory.length_readBytes (m : Memory) (a n : Nat) : (m.readBytes a n).length = n := by
  simp [Memory.readBytes]

theorem Memory.getElem?_readBytes (m : Memory) (a n k : Nat) (hk : k < n) :
    (m.readBytes a n)[k]? = some (m.read (a + k)) := by
  simp [Memory.readBytes, hk]

end Sys2Proof.Machine
end

