-- ==== Sys2Proof/Laws/State.lean ====
section
/-! SUPPORT. One lemma per field per named update of the state, true by rfl, so that no later proof unfolds a record update. -/

namespace Sys2Proof.Machine

variable (s : State)

/-! #### setReg -/

@[simp] theorem setReg_pc (r : Reg) (b : Byte) : (s.setReg r b).pc = s.pc := rfl
@[simp] theorem setReg_mem (r : Reg) (b : Byte) : (s.setReg r b).mem = s.mem := rfl
@[simp] theorem setReg_v (r : Reg) (b : Byte) : (s.setReg r b).v = s.v.set r b := rfl
@[simp] theorem setReg_i (r : Reg) (b : Byte) : (s.setReg r b).i = s.i := rfl
@[simp] theorem setReg_stack (r : Reg) (b : Byte) : (s.setReg r b).stack = s.stack := rfl
@[simp] theorem setReg_sp (r : Reg) (b : Byte) : (s.setReg r b).sp = s.sp := rfl
@[simp] theorem setReg_keys (r : Reg) (b : Byte) : (s.setReg r b).keys = s.keys := rfl
@[simp] theorem setReg_dt (r : Reg) (b : Byte) : (s.setReg r b).dt = s.dt := rfl
@[simp] theorem setReg_st (r : Reg) (b : Byte) : (s.setReg r b).st = s.st := rfl
@[simp] theorem setReg_fb (r : Reg) (b : Byte) : (s.setReg r b).fb = s.fb := rfl
@[simp] theorem setReg_faulted (r : Reg) (b : Byte) : (s.setReg r b).faulted = s.faulted := rfl
@[simp] theorem setReg_faultCode (r : Reg) (b : Byte) : (s.setReg r b).faultCode = s.faultCode := rfl
@[simp] theorem setReg_draws (r : Reg) (b : Byte) : (s.setReg r b).draws = s.draws := rfl
@[simp] theorem setReg_inbox (r : Reg) (b : Byte) : (s.setReg r b).inbox = s.inbox := rfl
@[simp] theorem setReg_outbox (r : Reg) (b : Byte) : (s.setReg r b).outbox = s.outbox := rfl

/-! #### setPc -/

@[simp] theorem setPc_pc (a : Word) : (s.setPc a).pc = a := rfl
@[simp] theorem setPc_mem (a : Word) : (s.setPc a).mem = s.mem := rfl
@[simp] theorem setPc_v (a : Word) : (s.setPc a).v = s.v := rfl
@[simp] theorem setPc_i (a : Word) : (s.setPc a).i = s.i := rfl
@[simp] theorem setPc_stack (a : Word) : (s.setPc a).stack = s.stack := rfl
@[simp] theorem setPc_sp (a : Word) : (s.setPc a).sp = s.sp := rfl
@[simp] theorem setPc_keys (a : Word) : (s.setPc a).keys = s.keys := rfl
@[simp] theorem setPc_dt (a : Word) : (s.setPc a).dt = s.dt := rfl
@[simp] theorem setPc_st (a : Word) : (s.setPc a).st = s.st := rfl
@[simp] theorem setPc_fb (a : Word) : (s.setPc a).fb = s.fb := rfl
@[simp] theorem setPc_faulted (a : Word) : (s.setPc a).faulted = s.faulted := rfl
@[simp] theorem setPc_faultCode (a : Word) : (s.setPc a).faultCode = s.faultCode := rfl
@[simp] theorem setPc_draws (a : Word) : (s.setPc a).draws = s.draws := rfl
@[simp] theorem setPc_inbox (a : Word) : (s.setPc a).inbox = s.inbox := rfl
@[simp] theorem setPc_outbox (a : Word) : (s.setPc a).outbox = s.outbox := rfl

/-! #### setI -/

@[simp] theorem setI_pc (a : Word) : (s.setI a).pc = s.pc := rfl
@[simp] theorem setI_mem (a : Word) : (s.setI a).mem = s.mem := rfl
@[simp] theorem setI_v (a : Word) : (s.setI a).v = s.v := rfl
@[simp] theorem setI_i (a : Word) : (s.setI a).i = a := rfl
@[simp] theorem setI_stack (a : Word) : (s.setI a).stack = s.stack := rfl
@[simp] theorem setI_sp (a : Word) : (s.setI a).sp = s.sp := rfl
@[simp] theorem setI_keys (a : Word) : (s.setI a).keys = s.keys := rfl
@[simp] theorem setI_dt (a : Word) : (s.setI a).dt = s.dt := rfl
@[simp] theorem setI_st (a : Word) : (s.setI a).st = s.st := rfl
@[simp] theorem setI_fb (a : Word) : (s.setI a).fb = s.fb := rfl
@[simp] theorem setI_faulted (a : Word) : (s.setI a).faulted = s.faulted := rfl
@[simp] theorem setI_faultCode (a : Word) : (s.setI a).faultCode = s.faultCode := rfl
@[simp] theorem setI_draws (a : Word) : (s.setI a).draws = s.draws := rfl
@[simp] theorem setI_inbox (a : Word) : (s.setI a).inbox = s.inbox := rfl
@[simp] theorem setI_outbox (a : Word) : (s.setI a).outbox = s.outbox := rfl

/-! #### setDt -/

@[simp] theorem setDt_pc (b : Byte) : (s.setDt b).pc = s.pc := rfl
@[simp] theorem setDt_mem (b : Byte) : (s.setDt b).mem = s.mem := rfl
@[simp] theorem setDt_v (b : Byte) : (s.setDt b).v = s.v := rfl
@[simp] theorem setDt_i (b : Byte) : (s.setDt b).i = s.i := rfl
@[simp] theorem setDt_stack (b : Byte) : (s.setDt b).stack = s.stack := rfl
@[simp] theorem setDt_sp (b : Byte) : (s.setDt b).sp = s.sp := rfl
@[simp] theorem setDt_keys (b : Byte) : (s.setDt b).keys = s.keys := rfl
@[simp] theorem setDt_dt (b : Byte) : (s.setDt b).dt = b := rfl
@[simp] theorem setDt_st (b : Byte) : (s.setDt b).st = s.st := rfl
@[simp] theorem setDt_fb (b : Byte) : (s.setDt b).fb = s.fb := rfl
@[simp] theorem setDt_faulted (b : Byte) : (s.setDt b).faulted = s.faulted := rfl
@[simp] theorem setDt_faultCode (b : Byte) : (s.setDt b).faultCode = s.faultCode := rfl
@[simp] theorem setDt_draws (b : Byte) : (s.setDt b).draws = s.draws := rfl
@[simp] theorem setDt_inbox (b : Byte) : (s.setDt b).inbox = s.inbox := rfl
@[simp] theorem setDt_outbox (b : Byte) : (s.setDt b).outbox = s.outbox := rfl

/-! #### setSt -/

@[simp] theorem setSt_pc (b : Byte) : (s.setSt b).pc = s.pc := rfl
@[simp] theorem setSt_mem (b : Byte) : (s.setSt b).mem = s.mem := rfl
@[simp] theorem setSt_v (b : Byte) : (s.setSt b).v = s.v := rfl
@[simp] theorem setSt_i (b : Byte) : (s.setSt b).i = s.i := rfl
@[simp] theorem setSt_stack (b : Byte) : (s.setSt b).stack = s.stack := rfl
@[simp] theorem setSt_sp (b : Byte) : (s.setSt b).sp = s.sp := rfl
@[simp] theorem setSt_keys (b : Byte) : (s.setSt b).keys = s.keys := rfl
@[simp] theorem setSt_dt (b : Byte) : (s.setSt b).dt = s.dt := rfl
@[simp] theorem setSt_st (b : Byte) : (s.setSt b).st = b := rfl
@[simp] theorem setSt_fb (b : Byte) : (s.setSt b).fb = s.fb := rfl
@[simp] theorem setSt_faulted (b : Byte) : (s.setSt b).faulted = s.faulted := rfl
@[simp] theorem setSt_faultCode (b : Byte) : (s.setSt b).faultCode = s.faultCode := rfl
@[simp] theorem setSt_draws (b : Byte) : (s.setSt b).draws = s.draws := rfl
@[simp] theorem setSt_inbox (b : Byte) : (s.setSt b).inbox = s.inbox := rfl
@[simp] theorem setSt_outbox (b : Byte) : (s.setSt b).outbox = s.outbox := rfl

/-! #### setMem -/

@[simp] theorem setMem_pc (m : Memory) : (s.setMem m).pc = s.pc := rfl
@[simp] theorem setMem_mem (m : Memory) : (s.setMem m).mem = m := rfl
@[simp] theorem setMem_v (m : Memory) : (s.setMem m).v = s.v := rfl
@[simp] theorem setMem_i (m : Memory) : (s.setMem m).i = s.i := rfl
@[simp] theorem setMem_stack (m : Memory) : (s.setMem m).stack = s.stack := rfl
@[simp] theorem setMem_sp (m : Memory) : (s.setMem m).sp = s.sp := rfl
@[simp] theorem setMem_keys (m : Memory) : (s.setMem m).keys = s.keys := rfl
@[simp] theorem setMem_dt (m : Memory) : (s.setMem m).dt = s.dt := rfl
@[simp] theorem setMem_st (m : Memory) : (s.setMem m).st = s.st := rfl
@[simp] theorem setMem_fb (m : Memory) : (s.setMem m).fb = s.fb := rfl
@[simp] theorem setMem_faulted (m : Memory) : (s.setMem m).faulted = s.faulted := rfl
@[simp] theorem setMem_faultCode (m : Memory) : (s.setMem m).faultCode = s.faultCode := rfl
@[simp] theorem setMem_draws (m : Memory) : (s.setMem m).draws = s.draws := rfl
@[simp] theorem setMem_inbox (m : Memory) : (s.setMem m).inbox = s.inbox := rfl
@[simp] theorem setMem_outbox (m : Memory) : (s.setMem m).outbox = s.outbox := rfl

/-! #### setFb -/

@[simp] theorem setFb_pc (f : Framebuffer) : (s.setFb f).pc = s.pc := rfl
@[simp] theorem setFb_mem (f : Framebuffer) : (s.setFb f).mem = s.mem := rfl
@[simp] theorem setFb_v (f : Framebuffer) : (s.setFb f).v = s.v := rfl
@[simp] theorem setFb_i (f : Framebuffer) : (s.setFb f).i = s.i := rfl
@[simp] theorem setFb_stack (f : Framebuffer) : (s.setFb f).stack = s.stack := rfl
@[simp] theorem setFb_sp (f : Framebuffer) : (s.setFb f).sp = s.sp := rfl
@[simp] theorem setFb_keys (f : Framebuffer) : (s.setFb f).keys = s.keys := rfl
@[simp] theorem setFb_dt (f : Framebuffer) : (s.setFb f).dt = s.dt := rfl
@[simp] theorem setFb_st (f : Framebuffer) : (s.setFb f).st = s.st := rfl
@[simp] theorem setFb_fb (f : Framebuffer) : (s.setFb f).fb = f := rfl
@[simp] theorem setFb_faulted (f : Framebuffer) : (s.setFb f).faulted = s.faulted := rfl
@[simp] theorem setFb_faultCode (f : Framebuffer) : (s.setFb f).faultCode = s.faultCode := rfl
@[simp] theorem setFb_draws (f : Framebuffer) : (s.setFb f).draws = s.draws := rfl
@[simp] theorem setFb_inbox (f : Framebuffer) : (s.setFb f).inbox = s.inbox := rfl
@[simp] theorem setFb_outbox (f : Framebuffer) : (s.setFb f).outbox = s.outbox := rfl

/-! #### takeEvent -/

@[simp] theorem takeEvent_pc : (s.takeEvent).pc = s.pc := rfl
@[simp] theorem takeEvent_mem : (s.takeEvent).mem = s.mem := rfl
@[simp] theorem takeEvent_v : (s.takeEvent).v = s.v := rfl
@[simp] theorem takeEvent_i : (s.takeEvent).i = s.i := rfl
@[simp] theorem takeEvent_stack : (s.takeEvent).stack = s.stack := rfl
@[simp] theorem takeEvent_sp : (s.takeEvent).sp = s.sp := rfl
@[simp] theorem takeEvent_keys : (s.takeEvent).keys = s.keys := rfl
@[simp] theorem takeEvent_dt : (s.takeEvent).dt = s.dt := rfl
@[simp] theorem takeEvent_st : (s.takeEvent).st = s.st := rfl
@[simp] theorem takeEvent_fb : (s.takeEvent).fb = s.fb := rfl
@[simp] theorem takeEvent_faulted : (s.takeEvent).faulted = s.faulted := rfl
@[simp] theorem takeEvent_faultCode : (s.takeEvent).faultCode = s.faultCode := rfl
@[simp] theorem takeEvent_draws : (s.takeEvent).draws = s.draws := rfl
@[simp] theorem takeEvent_inbox : (s.takeEvent).inbox = s.inbox.tail := rfl
@[simp] theorem takeEvent_outbox : (s.takeEvent).outbox = s.outbox := rfl

/-! #### emit -/

@[simp] theorem emit_pc (o : Output) : (s.emit o).pc = s.pc := rfl
@[simp] theorem emit_mem (o : Output) : (s.emit o).mem = s.mem := rfl
@[simp] theorem emit_v (o : Output) : (s.emit o).v = s.v := rfl
@[simp] theorem emit_i (o : Output) : (s.emit o).i = s.i := rfl
@[simp] theorem emit_stack (o : Output) : (s.emit o).stack = s.stack := rfl
@[simp] theorem emit_sp (o : Output) : (s.emit o).sp = s.sp := rfl
@[simp] theorem emit_keys (o : Output) : (s.emit o).keys = s.keys := rfl
@[simp] theorem emit_dt (o : Output) : (s.emit o).dt = s.dt := rfl
@[simp] theorem emit_st (o : Output) : (s.emit o).st = s.st := rfl
@[simp] theorem emit_fb (o : Output) : (s.emit o).fb = s.fb := rfl
@[simp] theorem emit_faulted (o : Output) : (s.emit o).faulted = s.faulted := rfl
@[simp] theorem emit_faultCode (o : Output) : (s.emit o).faultCode = s.faultCode := rfl
@[simp] theorem emit_draws (o : Output) : (s.emit o).draws = s.draws := rfl
@[simp] theorem emit_inbox (o : Output) : (s.emit o).inbox = s.inbox := rfl
@[simp] theorem emit_outbox (o : Output) : (s.emit o).outbox = s.outbox ++ [o] := rfl

/-! #### drawRnd -/

@[simp] theorem drawRnd_pc : (s.drawRnd.2).pc = s.pc := rfl
@[simp] theorem drawRnd_mem : (s.drawRnd.2).mem = s.mem := rfl
@[simp] theorem drawRnd_v : (s.drawRnd.2).v = s.v := rfl
@[simp] theorem drawRnd_i : (s.drawRnd.2).i = s.i := rfl
@[simp] theorem drawRnd_stack : (s.drawRnd.2).stack = s.stack := rfl
@[simp] theorem drawRnd_sp : (s.drawRnd.2).sp = s.sp := rfl
@[simp] theorem drawRnd_keys : (s.drawRnd.2).keys = s.keys := rfl
@[simp] theorem drawRnd_dt : (s.drawRnd.2).dt = s.dt := rfl
@[simp] theorem drawRnd_st : (s.drawRnd.2).st = s.st := rfl
@[simp] theorem drawRnd_fb : (s.drawRnd.2).fb = s.fb := rfl
@[simp] theorem drawRnd_faulted : (s.drawRnd.2).faulted = s.faulted := rfl
@[simp] theorem drawRnd_faultCode : (s.drawRnd.2).faultCode = s.faultCode := rfl
@[simp] theorem drawRnd_draws : (s.drawRnd.2).draws = s.draws + 1 := rfl
@[simp] theorem drawRnd_inbox : (s.drawRnd.2).inbox = s.inbox := rfl
@[simp] theorem drawRnd_outbox : (s.drawRnd.2).outbox = s.outbox := rfl

/-! #### setRegFlag -/

@[simp] theorem setRegFlag_pc (x : Reg) (r : Byte × Bool) : (s.setRegFlag x r).pc = s.pc := rfl
@[simp] theorem setRegFlag_mem (x : Reg) (r : Byte × Bool) : (s.setRegFlag x r).mem = s.mem := rfl
@[simp] theorem setRegFlag_i (x : Reg) (r : Byte × Bool) : (s.setRegFlag x r).i = s.i := rfl
@[simp] theorem setRegFlag_stack (x : Reg) (r : Byte × Bool) : (s.setRegFlag x r).stack = s.stack := rfl
@[simp] theorem setRegFlag_sp (x : Reg) (r : Byte × Bool) : (s.setRegFlag x r).sp = s.sp := rfl
@[simp] theorem setRegFlag_keys (x : Reg) (r : Byte × Bool) : (s.setRegFlag x r).keys = s.keys := rfl
@[simp] theorem setRegFlag_dt (x : Reg) (r : Byte × Bool) : (s.setRegFlag x r).dt = s.dt := rfl
@[simp] theorem setRegFlag_st (x : Reg) (r : Byte × Bool) : (s.setRegFlag x r).st = s.st := rfl
@[simp] theorem setRegFlag_fb (x : Reg) (r : Byte × Bool) : (s.setRegFlag x r).fb = s.fb := rfl
@[simp] theorem setRegFlag_faulted (x : Reg) (r : Byte × Bool) : (s.setRegFlag x r).faulted = s.faulted := rfl
@[simp] theorem setRegFlag_faultCode (x : Reg) (r : Byte × Bool) : (s.setRegFlag x r).faultCode = s.faultCode := rfl
@[simp] theorem setRegFlag_draws (x : Reg) (r : Byte × Bool) : (s.setRegFlag x r).draws = s.draws := rfl
@[simp] theorem setRegFlag_inbox (x : Reg) (r : Byte × Bool) : (s.setRegFlag x r).inbox = s.inbox := rfl
@[simp] theorem setRegFlag_outbox (x : Reg) (r : Byte × Bool) : (s.setRegFlag x r).outbox = s.outbox := rfl

/-! #### enterFault: the elements the spec gives a value, and the model's own fields -/

@[simp] theorem enterFault_faulted (k : FaultKind) : (enterFault k s).faulted = true := rfl
@[simp] theorem enterFault_faultCode (k : FaultKind) : (enterFault k s).faultCode = k.code := rfl
@[simp] theorem enterFault_draws (k : FaultKind) : (enterFault k s).draws = s.draws + 1 := rfl
@[simp] theorem enterFault_inbox (k : FaultKind) : (enterFault k s).inbox = s.inbox := rfl
@[simp] theorem enterFault_outbox (k : FaultKind) : (enterFault k s).outbox = s.outbox := rfl
@[simp] theorem enterFault_mem (k : FaultKind) : (enterFault k s).mem = Memory.tabulate (Config.lostByte s.draws) := rfl

/-! #### Reads through an update -/

@[simp] theorem reg_setReg (r q : Reg) (b : Byte) : (s.setReg r b).reg q = if r = q then b else s.reg q := by
  simp [State.reg, State.setReg, Vector.getElem_set, Fin.ext_iff]

theorem reg_setReg_self (r : Reg) (b : Byte) : (s.setReg r b).reg r = b := by simp

theorem reg_setReg_ne (r q : Reg) (b : Byte) (h : r ≠ q) : (s.setReg r b).reg q = s.reg q := by simp [h]

@[simp] theorem reg_setRegFlag (x q : Reg) (r : Byte × Bool) :
    (s.setRegFlag x r).reg q = if flagReg = q then flagByte r.2 else if x = q then r.1 else s.reg q := by
  simp [State.setRegFlag]

@[simp] theorem reg_setPc (a : Word) (q : Reg) : (s.setPc a).reg q = s.reg q := rfl
@[simp] theorem reg_setI (a : Word) (q : Reg) : (s.setI a).reg q = s.reg q := rfl
@[simp] theorem reg_setDt (b : Byte) (q : Reg) : (s.setDt b).reg q = s.reg q := rfl
@[simp] theorem reg_setSt (b : Byte) (q : Reg) : (s.setSt b).reg q = s.reg q := rfl
@[simp] theorem reg_setMem (m : Memory) (q : Reg) : (s.setMem m).reg q = s.reg q := rfl
@[simp] theorem reg_setFb (f : Framebuffer) (q : Reg) : (s.setFb f).reg q = s.reg q := rfl
@[simp] theorem reg_takeEvent (q : Reg) : (s.takeEvent).reg q = s.reg q := rfl
@[simp] theorem reg_emit (o : Output) (q : Reg) : (s.emit o).reg q = s.reg q := rfl
@[simp] theorem reg_drawRnd (q : Reg) : (s.drawRnd.2).reg q = s.reg q := rfl

@[simp] theorem key_setReg (r : Reg) (b : Byte) (k : Key) : (s.setReg r b).key k = s.key k := rfl
@[simp] theorem key_setPc (a : Word) (k : Key) : (s.setPc a).key k = s.key k := rfl
@[simp] theorem key_setI (a : Word) (k : Key) : (s.setI a).key k = s.key k := rfl
@[simp] theorem key_setDt (b : Byte) (k : Key) : (s.setDt b).key k = s.key k := rfl
@[simp] theorem key_setSt (b : Byte) (k : Key) : (s.setSt b).key k = s.key k := rfl
@[simp] theorem key_setMem (m : Memory) (k : Key) : (s.setMem m).key k = s.key k := rfl
@[simp] theorem key_setFb (f : Framebuffer) (k : Key) : (s.setFb f).key k = s.key k := rfl
@[simp] theorem key_takeEvent (k : Key) : (s.takeEvent).key k = s.key k := rfl
@[simp] theorem key_emit (o : Output) (k : Key) : (s.emit o).key k = s.key k := rfl
@[simp] theorem key_drawRnd (k : Key) : (s.drawRnd.2).key k = s.key k := rfl
@[simp] theorem key_setRegFlag (x : Reg) (r : Byte × Bool) (k : Key) : (s.setRegFlag x r).key k = s.key k := rfl

/-! #### skipIf -/

@[simp] theorem skipIf_pc (c : Bool) : (s.skipIf c).pc = if c then s.pc + 2 else s.pc := by
  cases c <;> rfl

theorem skipIf_eq (c : Bool) : s.skipIf c = s.setPc (if c then s.pc + 2 else s.pc) := by
  cases c <;> rfl

end Sys2Proof.Machine
end

