-- ==== Sys2Proof/Laws/Ops.lean ====
section
/-! SUPPORT. One lemma per shared operation that says everything it can do. -/

namespace Sys2Proof.Machine

/-- The bound check (20_memory.md R62). -/
theorem outOfMemory_iff (a n : Nat) : outOfMemory a n = true ↔ 0 < n ∧ 4095 < a + n - 1 := by
  simp only [outOfMemory, Config.memSize, decide_eq_true_eq]; omega

theorem outOfMemory_false_iff (a n : Nat) : outOfMemory a n = false ↔ n = 0 ∨ a + n ≤ 4096 := by
  rw [← Bool.not_eq_true, outOfMemory_iff]; omega

/-- The fetch inside memory, and the fetch that leaves it (20_memory.md R65). -/
theorem fetch_eq (s : State) :
    s.fetch = if s.pc.toNat ≤ 4094 then
      some (wordOfBytes (s.mem.read s.pc.toNat) (s.mem.read (s.pc.toNat + 1)), s.setPc (s.pc + 2)) else none := by
  unfold State.fetch
  by_cases h : s.pc.toNat ≤ 4094
  · rw [if_neg (by rw [outOfMemory_iff]; omega), if_pos h]
  · rw [if_pos (by rw [outOfMemory_iff]; omega), if_neg h]

/-- A push onto a stack that is not full. -/
theorem push_of_lt (s : State) (a : Word) (h : s.sp.val < 16) :
    s.push a = some { s with stack := s.stack.set s.sp.val a h, sp := ⟨s.sp.val + 1, by omega⟩ } := by
  simp [State.push, h]

theorem push_full (s : State) (a : Word) (h : s.sp = 16) : s.push a = none := by
  simp [State.push, h]

/-- A pop from a stack that is not empty: the top slot, which is kept. -/
theorem pop_of_pos (s : State) (j : Fin 16) (h : s.sp.val = j.val + 1) :
    s.pop = some (s.stack[j], { s with sp := ⟨j.val, by omega⟩ }) := by
  simp [State.pop, h]

theorem pop_empty (s : State) (h : s.sp = 0) : s.pop = none := by
  simp [State.pop, h]

/-- The key number of a value (46_keypad.md R185). -/
theorem keyNumbered_of_eq (b : Byte) (k : Key) (h : b.toNat = k.val) : keyNumbered b = some k := by
  have hk : b.toNat < 16 := h ▸ k.isLt
  simp only [keyNumbered, hk, dif_pos]
  exact congrArg some (Fin.ext h)

theorem keyNumbered_none (b : Byte) (h : 15 < b.toNat) : keyNumbered b = none := by
  simp [keyNumbered, Nat.not_lt.2 h]

/-- The key scan answers the least pressed key, none where none is pressed (46_keypad.md R187). -/
theorem firstKey_eq_some (s : State) (k : Key) (hk : s.key k = true) (hlt : ∀ j, j < k → s.key j = false) :
    s.firstKey = some k := by
  unfold State.firstKey
  rw [List.find?_eq_some_iff_getElem]
  refine ⟨hk, k.val, by simp, by simp, fun j hj => ?_⟩
  simp only [List.getElem_finRange, Bool.not_eq_true']
  exact hlt _ (by simpa [Fin.lt_def] using hj)

theorem firstKey_eq_none (s : State) (h : ∀ k, s.key k = false) : s.firstKey = none := by
  simp [State.firstKey, h]

/-- The answer of the key scan is pressed. -/
theorem firstKey_pressed (s : State) (k : Key) (h : s.firstKey = some k) : s.key k = true := by
  simpa using List.find?_some h

/-- The registers a bulk load gives (43_index_and_memory.md R165). -/
theorem getElem_loadRegs (m : Memory) (a : Nat) (v : Vector Byte 16) (n : Nat) (r : Reg) (hn : n ≤ 16) :
    (loadRegs m a v n)[r] = if r.val < n then m.read (a + r.val) else v[r] := by
  induction n with
  | zero => simp [loadRegs]
  | succ n ih =>
    have ih := ih (by omega)
    simp only [loadRegs, show n < 16 by omega, dif_pos, Fin.getElem_fin, Vector.getElem_set] at ih ⊢
    by_cases h : n = r.val
    · simp [h]
    · rw [if_neg h, ih]
      congr 1
      exact propext (by omega)

@[simp] theorem length_firstRegs (s : State) (x : Reg) : (s.firstRegs (x.val + 1)).length = x.val + 1 := by
  simp [State.firstRegs]

/-- The bytes a bulk store stores (43_index_and_memory.md R164). -/
theorem getElem?_firstRegs (s : State) (n k : Nat) (hk : k < n) (h : k < 16) :
    (s.firstRegs n)[k]? = some (s.reg ⟨k, h⟩) := by
  simp [State.firstRegs, State.reg, hk, h]

/-- A store at `I` inside memory: the bytes written, nothing else changed. -/
theorem storeAtI_fits (ws : List Byte) (s : State) (h : s.base + ws.length ≤ 4096) :
    storeAtI ws s = .next (s.setMem (s.mem.writeBytes s.base ws)) := by
  unfold storeAtI
  rw [if_neg (by rw [outOfMemory_iff]; omega)]

/-- A store at `I` that leaves memory: the fault. -/
theorem storeAtI_faults (ws : List Byte) (s : State) (h : 4096 < s.base + ws.length) (hn : 0 < ws.length) :
    storeAtI ws s = .next (enterFault .memoryOutOfBounds s) := by
  unfold storeAtI
  rw [if_pos (by rw [outOfMemory_iff]; omega), raise]

@[simp] theorem length_bcdDigits (b : Byte) : (bcdDigits b).length = 3 := rfl

/-- The value of the address operand forms. -/
@[simp] theorem toNat_zext12 (nnn : BitVec 12) : (zext12 nnn).toNat = nnn.toNat := by
  have := nnn.isLt
  simp [zext12]; omega

@[simp] theorem toNat_zext8 (b : Byte) : (zext8 b).toNat = b.toNat := by
  have := b.isLt
  simp [zext8]; omega

/-- The glyph address (43_index_and_memory.md R162). -/
theorem toNat_glyphAddress (b : Byte) : (glyphAddress b).toNat = 5 * (b.toNat % 16) := by
  have h : (zext8 (b &&& 0x0F)).toNat = b.toNat % 16 := by
    rw [toNat_zext8, BitVec.toNat_and]
    exact Nat.and_two_pow_sub_one_eq_mod b.toNat 4
  have := Nat.mod_lt b.toNat (show 0 < 16 by decide)
  simp only [glyphAddress, BitVec.toNat_mul, h]
  show 5 * (b.toNat % 16) % 65536 = _
  omega

/-- One count toward zero (47_timers.md R198). -/
theorem toNat_countDown (b : Byte) : (countDown b).toNat = b.toNat - 1 := by
  unfold countDown
  split
  · simp [*]
  · rename_i h
    have : b.toNat ≠ 0 := fun h' => h (BitVec.eq_of_toNat_eq (by simpa using h'))
    have := b.isLt
    rw [BitVec.toNat_sub]
    show (2 ^ 8 - 1 + b.toNat) % 2 ^ 8 = _
    omega

/-- `CYCLE` by its cases (10_state.md R37). -/
theorem cycle_faulted (s : State) (h : s.faulted = true) : cycle s = .next s := by simp [cycle, h]

theorem cycle_fetchFault (s : State) (h : s.faulted = false) (hp : 4094 < s.pc.toNat) :
    cycle s = .next (enterFault .memoryOutOfBounds s) := by
  simp [cycle, h, fetch_eq, Nat.not_le.2 hp, raise]

theorem cycle_running (s : State) (h : s.faulted = false) (hp : s.pc.toNat ≤ 4094) :
    cycle s = match decodeWord (wordOfBytes (s.mem.read s.pc.toNat) (s.mem.read (s.pc.toNat + 1))) with
      | .error _ => .next (enterFault .unrecognizedInstruction (s.setPc (s.pc + 2)))
      | .ok i => exec i (s.setPc (s.pc + 2)) := by
  simp only [cycle, h, fetch_eq, hp, if_true, raise]
  rfl

end Sys2Proof.Machine
end

