-- ==== Sys2Proof/Laws/Display.lean ====
section
/-! SUPPORT. The framebuffer operations cell by cell, and the sprite drawn by the loops as one formula per cell. -/

namespace Sys2Proof.Machine

@[simp] theorem pixel_clear (y : Fin 32) (x : Fin 64) : Framebuffer.clear.pixel y x = false := by
  simp [Framebuffer.clear, Framebuffer.pixel]

/-- A toggle flips one cell. -/
theorem pixel_toggle (fb : Framebuffer) (y v : Fin 32) (x u : Fin 64) :
    (fb.toggle y x).pixel v u = if v = y ∧ u = x then !fb.pixel v u else fb.pixel v u := by
  simp only [Framebuffer.toggle, Framebuffer.pixel, Fin.getElem_fin, Vector.getElem_set, Fin.ext_iff]
  by_cases hy : y.val = v.val
  · by_cases hx : x.val = u.val
    · simp [hy, hx]
    · simp [hy, hx, Ne.symm hx]
  · simp [hy, Ne.symm hy]

/-- What drawing does to a frame and its collision, cell by cell: the cells `lit` are flipped, and the collision is reported
when one of them was set. -/
def Draws (lit : Fin 32 → Fin 64 → Prop) (d e : Framebuffer × Bool) : Prop :=
  (∀ y x, lit y x → e.1.pixel y x = !d.1.pixel y x) ∧ (∀ y x, ¬ lit y x → e.1.pixel y x = d.1.pixel y x) ∧
    (e.2 = true ↔ d.2 = true ∨ ∃ y x, lit y x ∧ d.1.pixel y x = true)

theorem Draws.refl (d : Framebuffer × Bool) : Draws (fun _ _ => False) d d := by
  simp [Draws]

/-- One draw after another that lights other cells lights the cells of both. -/
theorem Draws.trans {l₁ l₂ : Fin 32 → Fin 64 → Prop} {d e f : Framebuffer × Bool} (h₁ : Draws l₁ d e) (h₂ : Draws l₂ e f)
    (hdis : ∀ y x, l₁ y x → ¬ l₂ y x) : Draws (fun y x => l₁ y x ∨ l₂ y x) d f := by
  obtain ⟨a₁, b₁, c₁⟩ := h₁
  obtain ⟨a₂, b₂, c₂⟩ := h₂
  refine ⟨fun y x h => ?_, fun y x h => ?_, ?_⟩
  · rcases h with h | h
    · rw [b₂ y x (hdis y x h), a₁ y x h]
    · rw [a₂ y x h, b₁ y x fun h' => hdis y x h' h]
  · rw [b₂ y x fun h' => h (.inr h'), b₁ y x fun h' => h (.inl h')]
  · rw [c₂, c₁]
    constructor
    · rintro ((h | ⟨y, x, h, h'⟩) | ⟨y, x, h, h'⟩)
      · exact .inl h
      · exact .inr ⟨y, x, .inl h, h'⟩
      · exact .inr ⟨y, x, .inr h, by rw [← b₁ y x fun h' => hdis y x h' h]; exact h'⟩
    · rintro (h | ⟨y, x, h | h, h'⟩)
      · exact .inl (.inl h)
      · exact .inl (.inr ⟨y, x, h, h'⟩)
      · exact .inr ⟨y, x, h, by rw [b₁ y x fun h' => hdis y x h' h]; exact h'⟩

theorem Draws.congr {l₁ l₂ : Fin 32 → Fin 64 → Prop} {d e : Framebuffer × Bool} (h : Draws l₁ d e)
    (hl : ∀ y x, l₁ y x ↔ l₂ y x) : Draws l₂ d e := by
  have : l₁ = l₂ := funext fun y => funext fun x => propext (hl y x)
  exact this ▸ h

/-- A set bit at `(px, py)` lights one cell. -/
theorem draws_drawBit (px py : Nat) (d : Framebuffer × Bool) :
    Draws (fun y x => y.val = py % 32 ∧ x.val = px % 64) d (drawBit px py d) := by
  have hy : ∀ y : Fin 32, y = Fin.ofNat 32 py ↔ y.val = py % 32 := fun y => by simp [Fin.ext_iff]
  have hx : ∀ x : Fin 64, x = Fin.ofNat 64 px ↔ x.val = px % 64 := fun x => by simp [Fin.ext_iff]
  refine ⟨fun y x h => ?_, fun y x h => ?_, ?_⟩
  · simp only [drawBit, pixel_toggle, hy, hx, h, and_self, if_true]
  · simp only [drawBit, pixel_toggle, hy, hx, h, if_false]
  · simp only [drawBit, Bool.or_eq_true, ← hy, ← hx]
    constructor
    · rintro (h | h)
      · exact .inl h
      · exact .inr ⟨_, _, ⟨rfl, rfl⟩, h⟩
    · rintro (h | ⟨y, x, ⟨rfl, rfl⟩, h⟩)
      · exact .inl h
      · exact .inr h

/-- The columns below `k` of a row. -/
theorem draws_columns (vx py : Nat) (b : Byte) (d : Framebuffer × Bool) (k : Nat) (hk : k ≤ 8) :
    Draws (fun y x => y.val = py % 32 ∧ ∃ col, col < k ∧ b.getLsbD (7 - col) = true ∧ x.val = (vx + col) % 64) d
      ((List.range k).foldl (fun d col => if b.getLsbD (7 - col) then drawBit (vx + col) py d else d) d) := by
  induction k with
  | zero => exact (Draws.refl d).congr (by simp)
  | succ k ih =>
    rw [List.range_succ, List.foldl_append]
    simp only [List.foldl_cons, List.foldl_nil]
    have ih := ih (by omega)
    by_cases hb : b.getLsbD (7 - k) = true
    · rw [if_pos hb]
      refine (ih.trans (draws_drawBit (vx + k) py _) ?_).congr fun y x => ?_
      · rintro y x ⟨-, col, hc, -, h⟩ ⟨-, h'⟩
        omega
      · constructor
        · rintro (⟨h, col, hc, h1, h2⟩ | ⟨h, h'⟩)
          · exact ⟨h, col, by omega, h1, h2⟩
          · exact ⟨h, k, by omega, hb, h'⟩
        · rintro ⟨h, col, hc, h1, h2⟩
          by_cases hck : col = k
          · exact .inr ⟨h, hck ▸ h2⟩
          · exact .inl ⟨h, col, by omega, h1, h2⟩
    · rw [if_neg hb]
      refine ih.congr fun y x => ?_
      constructor
      · rintro ⟨h, col, hc, h1, h2⟩
        exact ⟨h, col, by omega, h1, h2⟩
      · rintro ⟨h, col, hc, h1, h2⟩
        refine ⟨h, col, ?_, h1, h2⟩
        by_cases hck : col = k
        · exact absurd (hck ▸ h1) hb
        · omega

/-- One row (45_display.md R176). -/
theorem draws_drawRow (vx py : Nat) (b : Byte) (d : Framebuffer × Bool) :
    Draws (fun y x => y.val = py % 32 ∧ ∃ col, col < 8 ∧ b.getLsbD (7 - col) = true ∧ x.val = (vx + col) % 64) d
      (drawRow vx py b d) :=
  draws_columns vx py b d 8 (Nat.le_refl 8)

/-- The rows of a sprite of at most 32 rows (45_display.md R176): row `r` lights row `(py + r) mod 32`. -/
theorem draws_drawRows (vx py : Nat) (bs : List Byte) (d : Framebuffer × Bool) (hn : bs.length ≤ 32) :
    Draws (fun y x => ∃ (row : Nat) (b : Byte) (col : Nat), bs[row]? = some b ∧ col < 8 ∧ b.getLsbD (7 - col) = true ∧
      y.val = (py + row) % 32 ∧ x.val = (vx + col) % 64) d (drawRows vx py bs d) := by
  induction bs generalizing py d with
  | nil => exact (Draws.refl d).congr (by simp)
  | cons b bs ih =>
    simp only [List.length_cons] at hn
    refine ((draws_drawRow vx py b d).trans (ih (py + 1) _ (by omega)) ?_).congr fun y x => ?_
    · rintro y x ⟨h, -⟩ ⟨row, c, col, hr, -, -, h', -⟩
      have := (List.getElem?_eq_some_iff.1 hr).1
      omega
    · constructor
      · rintro (⟨h, col, hc, h1, h2⟩ | ⟨row, c, col, hr, hc, h1, h2, h3⟩)
        · exact ⟨0, b, col, by simp, hc, h1, by simpa using h, h2⟩
        · exact ⟨row + 1, c, col, by simpa using hr, hc, h1, by rw [h2]; congr 1; omega, h3⟩
      · rintro ⟨row, c, col, hr, hc, h1, h2, h3⟩
        cases row with
        | zero =>
          simp only [List.getElem?_cons_zero, Option.some.injEq] at hr
          exact .inl ⟨by simpa using h2, col, hc, hr ▸ h1, h3⟩
        | succ row => exact .inr ⟨row, c, col, by simpa using hr, hc, h1, by rw [h2]; congr 1; omega, h3⟩

/-- The row-major read-out (45_display.md R178). -/
theorem getElem?_flatMap_toList {n : Nat} (rows : List (Vector Bool n)) (y x : Nat) (hx : x < n) :
    (rows.flatMap Vector.toList)[n * y + x]? = (rows[y]?).map (·[x]) := by
  induction rows generalizing y with
  | nil => simp
  | cons r rows ih =>
    rw [List.flatMap_cons]
    cases y with
    | zero => rw [List.getElem?_append_left (by simpa using hx)]; simp [hx]
    | succ y =>
      rw [List.getElem?_append_right (by simp; nlinarith)]
      simp only [Vector.length_toList, List.getElem?_cons_succ]
      rw [show n * (y + 1) + x - n = n * y + x by rw [Nat.mul_succ]; omega, ih y]

theorem getElem?_readOut (fb : Framebuffer) (y : Fin 32) (x : Fin 64) :
    fb.readOut[64 * y.val + x.val]? = some (fb.pixel y x) := by
  rw [Framebuffer.readOut, getElem?_flatMap_toList _ _ _ x.isLt]
  simp [Framebuffer.pixel]

@[simp] theorem length_readOut (fb : Framebuffer) : fb.readOut.length = 2048 := by
  simp [Framebuffer.readOut, List.length_flatMap]

end Sys2Proof.Machine
end

