-- ==== Sys2Proof/Laws/Exec.lean ====
section
/-! SUPPORT. What each instruction that can fault, and the key wait, answers: one lemma per case. The other instructions
answer the one next state their definition names. -/

namespace Sys2Proof.Machine

theorem exec_ret_empty (s : State) (h : s.sp = 0) : exec .ret s = .next (enterFault .stackUnderflow s) := by
  simp only [exec, execRet, pop_empty s h, raise]

theorem exec_ret_pops (s : State) (j : Fin 16) (h : s.sp.val = j.val + 1) :
    exec .ret s = .next { s with pc := s.stack[j], sp := ⟨j.val, by omega⟩ } := by
  simp only [exec, execRet, pop_of_pos s j h]
  rfl

/-- A stack that is not empty has a top slot. -/
theorem sp_pos (s : State) (h : s.sp ≠ 0) : ∃ j : Fin 16, s.sp.val = j.val + 1 := by
  have h0 : s.sp.val ≠ 0 := fun h' => h (Fin.ext h')
  have h1 := s.sp.isLt
  exact ⟨⟨s.sp.val - 1, by omega⟩, by show s.sp.val = s.sp.val - 1 + 1; omega⟩

/-- A stack that is not full has a free slot. -/
theorem sp_lt (s : State) (h : s.sp ≠ 16) : s.sp.val < 16 := by
  have h0 : s.sp.val ≠ 16 := fun h' => h (Fin.ext h')
  have h1 := s.sp.isLt
  omega

theorem exec_call_full (nnn : BitVec 12) (s : State) (h : s.sp = 16) :
    exec (.call nnn) s = .next (enterFault .stackOverflow s) := by
  simp only [exec, execCall, push_full s _ h, raise]

theorem exec_call_pushes (nnn : BitVec 12) (s : State) (h : s.sp.val < 16) :
    exec (.call nnn) s =
      .next { s with pc := zext12 nnn, stack := s.stack.set s.sp.val s.pc h, sp := ⟨s.sp.val + 1, by omega⟩ } := by
  simp only [exec, execCall, push_of_lt s _ h]
  rfl

theorem exec_drw_faults (x y : Reg) (n : Nat) (s : State) (h : 0 < n ∧ 4095 < s.i.toNat + n - 1) :
    exec (.drw x y n) s = .next (enterFault .memoryOutOfBounds s) := by
  have ho : outOfMemory s.base n = true := (outOfMemory_iff s.base n).2 h
  simp only [exec, execDrw, raise, ho, if_true]

theorem exec_drw_draws (x y : Reg) (n : Nat) (s : State) (h : ¬ (0 < n ∧ 4095 < s.i.toNat + n - 1)) :
    exec (.drw x y n) s = .next ((s.setFb (s.drawn x y n).1).setReg flagReg (flagByte (s.drawn x y n).2)) := by
  simp only [exec, execDrw]
  exact if_neg fun h' => h ((outOfMemory_iff s.base n).1 h')

theorem exec_ldB_faults (x : Reg) (s : State) (h : 4095 < s.i.toNat + 2) :
    exec (.ldB x) s = .next (enterFault .memoryOutOfBounds s) :=
  storeAtI_faults _ s (by simp only [State.base, length_bcdDigits]; omega) (by simp)

theorem exec_ldB_stores (x : Reg) (s : State) (h : ¬ 4095 < s.i.toNat + 2) :
    exec (.ldB x) s = .next (s.setMem (s.mem.writeBytes s.base (bcdDigits (s.reg x)))) :=
  storeAtI_fits _ s (by simp only [State.base, length_bcdDigits]; omega)

theorem exec_stRegs_faults (x : Reg) (s : State) (h : 4095 < s.i.toNat + x.val) :
    exec (.stRegs x) s = .next (enterFault .memoryOutOfBounds s) :=
  storeAtI_faults _ s (by simp only [State.base, length_firstRegs]; omega) (by simp)

theorem exec_stRegs_stores (x : Reg) (s : State) (h : ¬ 4095 < s.i.toNat + x.val) :
    exec (.stRegs x) s = .next (s.setMem (s.mem.writeBytes s.base (s.firstRegs (x.val + 1)))) :=
  storeAtI_fits _ s (by simp only [State.base, length_firstRegs]; omega)

theorem exec_ldRegs_faults (x : Reg) (s : State) (h : 4095 < s.i.toNat + x.val) :
    exec (.ldRegs x) s = .next (enterFault .memoryOutOfBounds s) := by
  simp only [exec, execLdRegs, raise]
  rw [if_pos ((outOfMemory_iff _ _).2 (by simp only [State.base]; omega))]

theorem exec_ldRegs_loads (x : Reg) (s : State) (h : ¬ 4095 < s.i.toNat + x.val) :
    exec (.ldRegs x) s = .next { s with v := loadRegs s.mem s.base s.v (x.val + 1) } := by
  simp only [exec, execLdRegs]
  rw [if_neg fun h' => h (by have := (outOfMemory_iff _ _).1 h'; simp only [State.base] at this; omega)]

theorem exec_skp_faults (x : Reg) (s : State) (h : 15 < (s.reg x).toNat) :
    exec (.skp x) s = .next (enterFault .keyIndexOutOfRange s) := by
  simp only [exec, execSkp, keyNumbered_none _ h, raise]

theorem exec_skp_skips (x : Reg) (s : State) (k : Key) (h : (s.reg x).toNat = k.val) :
    exec (.skp x) s = .next (s.skipIf (s.key k)) := by
  simp only [exec, execSkp, keyNumbered_of_eq _ k h]

theorem exec_sknp_faults (x : Reg) (s : State) (h : 15 < (s.reg x).toNat) :
    exec (.sknp x) s = .next (enterFault .keyIndexOutOfRange s) := by
  simp only [exec, execSknp, keyNumbered_none _ h, raise]

theorem exec_sknp_skips (x : Reg) (s : State) (k : Key) (h : (s.reg x).toNat = k.val) :
    exec (.sknp x) s = .next (s.skipIf (!s.key k)) := by
  simp only [exec, execSknp, keyNumbered_of_eq _ k h]

/-- A value of at most 15 numbers a key. -/
theorem key_of_le (b : Byte) (h : ¬ 15 < b.toNat) : ∃ k : Key, b.toNat = k.val :=
  ⟨⟨b.toNat, by omega⟩, rfl⟩

theorem exec_ldVxK_pressed (x : Reg) (s : State) (k : Key) (h : s.firstKey = some k) :
    exec (.ldVxK x) s = .next (s.setReg x (BitVec.ofNat 8 k.val)) := by
  simp only [exec, execLdVxK, h]

theorem exec_ldVxK_waits (x : Reg) (s : State) (h : s.firstKey = none) :
    exec (.ldVxK x) s = .next (s.setPc (s.pc - 2)) := by
  simp only [exec, execLdVxK, h]

end Sys2Proof.Machine
end

