-- ==== Sys2Proof/Laws/PerInstr.lean ====
section
/-! SUPPORT. Family `RowWord`: the word an instruction encodes to has the fixed digits of its row of the opcode map
(30_encoding.md R94). -/

namespace Sys2Proof.Laws.RowWord

/-- The encoded word fits the mask and match of the instruction's row. -/
def Statement (i : Instr) : Prop := ∃ r, opcodeMap[i.row]? = some r ∧ encodeWord i &&& r.1 = r.2

/-- Format `NNN` fits a mask that keeps the first digit. -/
theorem packNNN_fits (op : BitVec 4) (nnn : BitVec 12) : packNNN op nnn &&& 0xF000 = digits op 0 0 0 := by
  rw [packNNN_eq, show (0xF000 : Word) = digits 0xF 0 0 0 from rfl, digits_and]
  exact digits_inj.2 ⟨BitVec.and_allOnes, BitVec.and_zero, BitVec.and_zero, BitVec.and_zero⟩

/-- Format `XNN` fits a mask that keeps the first digit. -/
theorem packXNN_fits (op : BitVec 4) (x : Reg) (nn : Byte) : packXNN op x nn &&& 0xF000 = digits op 0 0 0 := by
  rw [packXNN_eq, show (0xF000 : Word) = digits 0xF 0 0 0 from rfl, digits_and]
  exact digits_inj.2 ⟨BitVec.and_allOnes, BitVec.and_zero, BitVec.and_zero, BitVec.and_zero⟩

/-- Format `XSS` fits a mask that drops the second digit. -/
theorem packXSS_fits (op : BitVec 4) (x : Reg) (nn : Byte) :
    packXNN op x nn &&& 0xF0FF = digits op 0 (nn.extractLsb' 4 4) (nn.extractLsb' 0 4) := by
  rw [packXNN_eq, show (0xF0FF : Word) = digits 0xF 0 0xF 0xF from rfl, digits_and]
  exact digits_inj.2 ⟨BitVec.and_allOnes, BitVec.and_zero, BitVec.and_allOnes, BitVec.and_allOnes⟩

/-- Format `XYS` fits a mask that keeps the first and the last digit. -/
theorem packXYS_fits (op : BitVec 4) (x y : Reg) (n : BitVec 4) : packXYN op x y n &&& 0xF00F = digits op 0 0 n := by
  rw [packXYN_eq, show (0xF00F : Word) = digits 0xF 0 0 0xF from rfl, digits_and]
  exact digits_inj.2 ⟨BitVec.and_allOnes, BitVec.and_zero, BitVec.and_zero, BitVec.and_allOnes⟩

/-- Format `XYN` fits a mask that keeps the first digit. -/
theorem packXYN_fits (op : BitVec 4) (x y : Reg) (n : BitVec 4) : packXYN op x y n &&& 0xF000 = digits op 0 0 0 := by
  rw [packXYN_eq, show (0xF000 : Word) = digits 0xF 0 0 0 from rfl, digits_and]
  exact digits_inj.2 ⟨BitVec.and_allOnes, BitVec.and_zero, BitVec.and_zero, BitVec.and_zero⟩

theorem cls : Statement .cls := ⟨_, rfl, by decide⟩

theorem ret : Statement .ret := ⟨_, rfl, by decide⟩

theorem jp (nnn : BitVec 12) : Statement (.jp nnn) := ⟨_, rfl, packNNN_fits _ nnn⟩

theorem call (nnn : BitVec 12) : Statement (.call nnn) := ⟨_, rfl, packNNN_fits _ nnn⟩

theorem seByte (x : Reg) (nn : Byte) : Statement (.seByte x nn) := ⟨_, rfl, packXNN_fits _ x nn⟩

theorem sneByte (x : Reg) (nn : Byte) : Statement (.sneByte x nn) := ⟨_, rfl, packXNN_fits _ x nn⟩

theorem seReg (x y : Reg) : Statement (.seReg x y) := ⟨_, rfl, packXYS_fits _ x y _⟩

theorem sneReg (x y : Reg) : Statement (.sneReg x y) := ⟨_, rfl, packXYS_fits _ x y _⟩

theorem ldByte (x : Reg) (nn : Byte) : Statement (.ldByte x nn) := ⟨_, rfl, packXNN_fits _ x nn⟩

theorem addByte (x : Reg) (nn : Byte) : Statement (.addByte x nn) := ⟨_, rfl, packXNN_fits _ x nn⟩

theorem ldReg (x y : Reg) : Statement (.ldReg x y) := ⟨_, rfl, packXYS_fits _ x y _⟩

theorem orReg (x y : Reg) : Statement (.orReg x y) := ⟨_, rfl, packXYS_fits _ x y _⟩

theorem andReg (x y : Reg) : Statement (.andReg x y) := ⟨_, rfl, packXYS_fits _ x y _⟩

theorem xorReg (x y : Reg) : Statement (.xorReg x y) := ⟨_, rfl, packXYS_fits _ x y _⟩

theorem addReg (x y : Reg) : Statement (.addReg x y) := ⟨_, rfl, packXYS_fits _ x y _⟩

theorem sub (x y : Reg) : Statement (.sub x y) := ⟨_, rfl, packXYS_fits _ x y _⟩

theorem shr (x y : Reg) : Statement (.shr x y) := ⟨_, rfl, packXYS_fits _ x y _⟩

theorem subn (x y : Reg) : Statement (.subn x y) := ⟨_, rfl, packXYS_fits _ x y _⟩

theorem shl (x y : Reg) : Statement (.shl x y) := ⟨_, rfl, packXYS_fits _ x y _⟩

theorem ldI (nnn : BitVec 12) : Statement (.ldI nnn) := ⟨_, rfl, packNNN_fits _ nnn⟩

theorem jpV0 (nnn : BitVec 12) : Statement (.jpV0 nnn) := ⟨_, rfl, packNNN_fits _ nnn⟩

theorem rnd (x : Reg) (nn : Byte) : Statement (.rnd x nn) := ⟨_, rfl, packXNN_fits _ x nn⟩

theorem drw (x y : Reg) (n : Nat) : Statement (.drw x y n) := ⟨_, rfl, packXYN_fits _ x y _⟩

theorem skp (x : Reg) : Statement (.skp x) := ⟨_, rfl, packXSS_fits _ x _⟩

theorem sknp (x : Reg) : Statement (.sknp x) := ⟨_, rfl, packXSS_fits _ x _⟩

theorem ldVxDt (x : Reg) : Statement (.ldVxDt x) := ⟨_, rfl, packXSS_fits _ x _⟩

theorem ldVxK (x : Reg) : Statement (.ldVxK x) := ⟨_, rfl, packXSS_fits _ x _⟩

theorem ldDtVx (x : Reg) : Statement (.ldDtVx x) := ⟨_, rfl, packXSS_fits _ x _⟩

theorem ldStVx (x : Reg) : Statement (.ldStVx x) := ⟨_, rfl, packXSS_fits _ x _⟩

theorem addI (x : Reg) : Statement (.addI x) := ⟨_, rfl, packXSS_fits _ x _⟩

theorem ldF (x : Reg) : Statement (.ldF x) := ⟨_, rfl, packXSS_fits _ x _⟩

theorem ldB (x : Reg) : Statement (.ldB x) := ⟨_, rfl, packXSS_fits _ x _⟩

theorem stRegs (x : Reg) : Statement (.stRegs x) := ⟨_, rfl, packXSS_fits _ x _⟩

theorem ldRegs (x : Reg) : Statement (.ldRegs x) := ⟨_, rfl, packXSS_fits _ x _⟩

end Sys2Proof.Laws.RowWord
end

