-- ==== Sys2Proof/Tests/Slice0.lean ====
section
/-! SUPPORT. The model's own tests: expected results from 95_test_vectors.md (its ids are cited) or by hand from the rule, then
the witnesses that the hypotheses of the statements can be met. -/

namespace Sys2Proof.Tests
open Sys2Proof Sys2Proof.Machine

/-! ### Well-formedness -/

/-- R93: `N` is a 4-bit field; 16 rows do not fit. -/
theorem test_wellFormed_rejects_sixteen_rows : (Instr.drw 0 0 16).wellFormed = false := by decide

theorem test_wellFormed_accepts_fifteen_rows : (Instr.drw 15 15 15).wellFormed = true := by decide

/-! ### Decoding: a word of every constructor, written out from the opcode map of R94 -/

/-- Families 0 to 4, 6, 7 and 9 to D. -/
theorem test_decode_plain_families :
    ([0x00E0, 0x00EE, 0x1ABC, 0x2ABC, 0x3A12, 0x4A12, 0x5AB0, 0x9AB0].map (decodeTableWord 16) =
      [some .cls, some .ret, some (.jp 0xABC), some (.call 0xABC), some (.seByte 10 0x12), some (.sneByte 10 0x12),
       some (.seReg 10 11), some (.sneReg 10 11)]) ∧
    ([0x6A12, 0x7A12, 0xAABC, 0xBABC, 0xCA12, 0xD12A].map (decodeTableWord 16) =
      [some (.ldByte 10 0x12), some (.addByte 10 0x12), some (.ldI 0xABC), some (.jpV0 0xABC), some (.rnd 10 0x12),
       some (.drw 1 2 10)]) := by decide

/-- Family 8. -/
theorem test_decode_family8 :
    [0x8120, 0x8121, 0x8122, 0x8123, 0x8124, 0x8125, 0x8126, 0x8127, 0x812E].map (decodeTableWord 16) =
      [some (.ldReg 1 2), some (.orReg 1 2), some (.andReg 1 2), some (.xorReg 1 2), some (.addReg 1 2), some (.sub 1 2),
       some (.shr 1 2), some (.subn 1 2), some (.shl 1 2)] := by decide

/-- Families E and F. -/
theorem test_decode_familiesEF :
    [0xE29E, 0xE2A1, 0xF207, 0xF20A, 0xF215, 0xF218, 0xF21E, 0xF229, 0xF233, 0xF255, 0xF265].map (decodeTableWord 16) =
      [some (.skp 2), some (.sknp 2), some (.ldVxDt 2), some (.ldVxK 2), some (.ldDtVx 2), some (.ldStVx 2), some (.addI 2),
       some (.ldF 2), some (.ldB 2), some (.stRegs 2), some (.ldRegs 2)] := by decide

/-- V-E2: the unrecognised words listed there. -/
theorem test_decode_rejects :
    ∀ w ∈ [0x0000, 0x00E1, 0x00EF, 0x00FE, 0x010E, 0x0123, 0x0FFF, 0x5001, 0x5121, 0x5F0F, 0x8008, 0x812D, 0x812F, 0x9001,
      0x9121] ++ [0x934F, 0xE000, 0xE09D, 0xE19F, 0xE1A0, 0xF000, 0xF00B, 0xF116, 0xF11F, 0xF130, 0xF156, 0xF164, 0xF175,
      0xF185, 0xF1FF], decodeTableWord 16 w = none := by decide

/-- R90, R96: the rejection names the word, or says that the word is cut short. -/
theorem test_decode_reject_names :
    decode [0x81, 0x2D, 0x77] = .error (.unrecognized 0x812D) ∧ decode [0xD7] = .error .truncated := ⟨rfl, rfl⟩

/-- V-E3: the first byte is the high one, in decoding and in encoding. -/
theorem test_bytes_big_endian :
    decode [0xD7, 0xA5, 0x99] = .ok (.drw 7 10 5, [0x99]) ∧ encode (.drw 7 10 5) = [0xD7, 0xA5] := ⟨rfl, by decide⟩

/-- R94: no word fits two rows of the opcode map. -/
theorem test_opcodeMap_disjoint : opcodeMap.Pairwise fun r r' => r.1 &&& r'.1 &&& (r.2 ^^^ r'.2) ≠ 0 := by decide

/-! ### One step from a small state -/

/-- The state after one step that runs the word `w`. -/
def after (w : Nat) (s : State) : Option State :=
  match step (s.withFetchWord 16 w) with
  | .next t => some t
  | .fault _ | .refused _ => none

/-- The state after reset with two registers set. -/
def regs (x : Reg) (a : Byte) (y : Reg) (b : Byte) : State := (State.reset.setReg x a).setReg y b

/-- The same with `I`, and with cells listed. -/
def regsAt (x : Reg) (a : Byte) (y : Reg) (b : Byte) (i : Word) (m : Memory) : State := ((regs x a y b).setI i).setMem m

/-- V-D1: `VF` is not written. -/
theorem test_cls : (after 0x00E0 ((regs 15 0x77 0 0).setFb (Framebuffer.clear.toggle 31 63))).map
    (fun t => (t.fb.pixel 31 63, t.reg 15, t.pc)) = some (false, 0x77, 0x0202) := by decide

/-- V-C8: the slot keeps its value. -/
theorem test_ret : (after 0x00EE { State.reset with stack := (State.reset.stack.set 0 0x0206).set 1 0x03AC, sp := 2 }).map
    (fun t => (t.pc, t.sp, t.stack[1])) = some (0x03AC, 1, 0x03AC) := by decide

/-- V-C9. -/
theorem test_ret_empty : (after 0x00EE State.reset).map (fun t => (t.faulted, t.faultCode)) = some (true, 4) := by decide

/-- V-C1. -/
theorem test_jp : (after 0x1ABC State.reset).map (·.pc) = some 0x0ABC := by decide

/-- V-C6, at 300: a full stack is legal. -/
theorem test_call : (after 0x2ABC { State.reset with pc := 0x0300, sp := 15 }).map
    (fun t => (t.stack[15], t.sp, t.pc, t.faulted)) = some (0x0302, 16, 0x0ABC, false) := by decide

/-- V-C7. -/
theorem test_call_full : (after 0x2ABC { State.reset with sp := 16 }).map
    (fun t => (t.faulted, t.faultCode)) = some (true, 3) := by decide

/-- V-C11: no wrap to 12 bits. -/
theorem test_jpV0 : (after 0xBFFF (regs 0 0xFF 1 0)).map (·.pc) = some 0x10FE := by decide

/-- V-S1. -/
theorem test_seByte_skips : (after 0x3342 (regs 3 0x42 4 0)).map (·.pc) = some 0x0204 := by decide

/-- V-S2. -/
theorem test_seByte_goes_on : (after 0x3342 (regs 3 0x43 4 0)).map (·.pc) = some 0x0202 := by decide

/-- V-S3. -/
theorem test_sneByte_goes_on : (after 0x4342 (regs 3 0x42 4 0)).map (·.pc) = some 0x0202 := by decide

/-- V-S4. -/
theorem test_sneByte_skips : (after 0x4342 (regs 3 0x43 4 0)).map (·.pc) = some 0x0204 := by decide

/-- V-S5. -/
theorem test_seReg_skips : (after 0x5340 (regs 3 7 4 7)).map (·.pc) = some 0x0204 := by decide

/-- V-S6. -/
theorem test_seReg_goes_on : (after 0x5340 (regs 3 7 4 8)).map (·.pc) = some 0x0202 := by decide

/-- V-S8. -/
theorem test_sneReg_goes_on : (after 0x9340 (regs 3 7 4 7)).map (·.pc) = some 0x0202 := by decide

/-- V-S9. -/
theorem test_sneReg_skips : (after 0x9340 (regs 3 7 4 8)).map (·.pc) = some 0x0204 := by decide

/-- V-A0, `X = F`. -/
theorem test_ldByte_flag : (after 0x6F09 (regs 15 0x77 1 0)).map (·.reg 15) = some 0x09 := by decide

/-- V-A0: no flag. -/
theorem test_addByte_wraps : (after 0x71FF (regs 1 0x01 15 0x77)).map (fun t => (t.reg 1, t.reg 15)) = some (0x00, 0x77) := by
  decide

/-- V-A1. -/
theorem test_ldReg : (after 0x8010 (regs 0 0x01 1 0x7E)).map (fun t => (t.reg 0, t.reg 1)) = some (0x7E, 0x7E) := by decide

/-- V-A1. -/
theorem test_orReg : (after 0x8011 ((regs 0 0xF0 1 0x0F).setReg 15 0x77)).map (fun t => (t.reg 0, t.reg 15)) =
    some (0xFF, 0x77) := by decide

/-- V-A1. -/
theorem test_andReg : (after 0x8012 ((regs 0 0xF3 1 0x3C).setReg 15 0x77)).map (fun t => (t.reg 0, t.reg 15)) =
    some (0x30, 0x77) := by decide

/-- V-A1. -/
theorem test_xorReg : (after 0x8013 ((regs 0 0xFF 1 0x0F).setReg 15 0x77)).map (fun t => (t.reg 0, t.reg 15)) =
    some (0xF0, 0x77) := by decide

/-- V-A1. -/
theorem test_addReg_carry : (after 0x8014 (regs 0 0xFF 1 0xFF)).map (fun t => (t.reg 0, t.reg 1, t.reg 15)) =
    some (0xFE, 0xFF, 0x01) := by decide

/-- V-A2: the flag replaces the sum. -/
theorem test_addReg_into_flag : (after 0x8F14 (regs 15 0xFF 1 0x01)).map (·.reg 15) = some 0x01 := by decide

/-- V-A1: equal operands do not borrow. -/
theorem test_sub_equal : (after 0x8015 (regs 0 5 1 5)).map (fun t => (t.reg 0, t.reg 15)) = some (0x00, 0x01) := by decide

/-- V-A2: the flag is an operand, read first. -/
theorem test_sub_reads_flag : (after 0x81F5 (regs 1 0x00 15 0x01)).map (fun t => (t.reg 1, t.reg 15)) = some (0xFF, 0x00) := by
  decide

/-- V-A1. -/
theorem test_subn : (after 0x8017 (regs 0 7 1 5)).map (fun t => (t.reg 0, t.reg 15)) = some (0xFE, 0x00) := by decide

/-- V-A1. -/
theorem test_subn_no_borrow : (after 0x8017 (regs 0 5 1 7)).map (fun t => (t.reg 0, t.reg 15)) = some (0x02, 0x01) := by decide

/-- V-A1, the row `8016 05 80` with both values of `SHIFT_USES_VY`. -/
theorem test_shr : ∃ t, exec (.shr 0 1) (regs 0 0x05 1 0x80) = .next t ∧
    (t.reg 0, t.reg 15) = if Config.shiftUsesVy then (0x40, 0x00) else (0x02, 0x01) := by
  refine ⟨_, rfl, ?_⟩
  cases h : Config.shiftUsesVy <;> simp only [State.shiftSource, h] <;> decide

/-- V-A3: either value of `SHIFT_USES_VY`. -/
theorem test_shr_same : ∃ t, exec (.shr 1 1) (regs 1 0x90 15 0) = .next t ∧ (t.reg 1, t.reg 15) = (0x48, 0x00) := by
  refine ⟨_, rfl, ?_⟩
  simp only [State.shiftSource, ite_self]; decide

/-- V-A1, the row `801E 81 01` with both values of `SHIFT_USES_VY`. -/
theorem test_shl : ∃ t, exec (.shl 0 1) (regs 0 0x81 1 0x01) = .next t ∧
    (t.reg 0, t.reg 15) = if Config.shiftUsesVy then (0x02, 0x00) else (0x02, 0x01) := by
  refine ⟨_, rfl, ?_⟩
  cases h : Config.shiftUsesVy <;> simp only [State.shiftSource, h] <;> decide

/-- V-A3: either value of `SHIFT_USES_VY`. -/
theorem test_shl_same : ∃ t, exec (.shl 1 1) (regs 1 0x90 15 0) = .next t ∧ (t.reg 1, t.reg 15) = (0x20, 0x01) := by
  refine ⟨_, rfl, ?_⟩
  simp only [State.shiftSource, ite_self]; decide

/-- V-M0. -/
theorem test_ldI : (after 0xAFFF State.reset).map (·.i) = some 0x0FFF := by decide

/-- V-M1: no wrap at 12 bits, no flag. -/
theorem test_addI : (after 0xF21E (regsAt 2 0x01 15 0x77 0x0FFF [])).map (fun t => (t.i, t.reg 15)) = some (0x1000, 0x77) := by
  decide

/-- V-M1. -/
theorem test_addI_wraps : (after 0xF21E (regsAt 2 0xFF 15 0x77 0xFFF0 [])).map (fun t => (t.i, t.reg 15)) =
    some (0x00EF, 0x77) := by decide

/-- V-M2: low nibble only. -/
theorem test_ldF : (after 0xF229 (regs 2 0x1F 0 0)).map (·.i) = some 0x004B := by decide

/-- V-M3. -/
theorem test_ldB : (after 0xF233 (regsAt 2 199 0 0 0x0300 [])).map (fun t => (t.mem.readBytes 0x2FF 5, t.i)) =
    some ([0, 1, 9, 9, 0], 0x0300) := by decide

/-- V-M3, bounds. -/
theorem test_ldB_outside : (after 0xF233 (regsAt 2 199 0 0 0x0FFE [])).map (fun t => (t.faulted, t.faultCode)) =
    some (true, 1) := by decide

/-- V-M4: `V[0]` to `V[X]` inclusive, up to the last cell. -/
theorem test_stRegs : (after 0xF155 (regsAt 0 0x10 1 0x11 0x0FFE [])).map (fun t => (t.mem.readBytes 0xFFD 3, t.i)) =
    some ([0x00, 0x10, 0x11], 0x0FFE) := by decide

/-- V-M4, bounds. -/
theorem test_stRegs_outside : (after 0xF055 (regsAt 0 0x10 1 0x11 0x1000 [])).map (fun t => (t.faulted, t.faultCode)) =
    some (true, 1) := by decide

/-- V-M6: the registers above `X` stay. -/
theorem test_ldRegs : (after 0xF165 (regsAt 2 0x55 3 0x55 0x0300 [(0x300, 0xA0), (0x301, 0xA1), (0x302, 0xA2)])).map
    (fun t => (t.reg 0, t.reg 1, t.reg 2, t.i)) = some (0xA0, 0xA1, 0x55, 0x0300) := by decide

/-- V-M6. -/
theorem test_ldRegs_outside : (after 0xF165 (regsAt 2 0x55 3 0x55 0x0FFF [])).map (fun t => (t.faulted, t.faultCode)) =
    some (true, 1) := by decide

/-- Section 2.6: the draw ANDed with `NN`, `VF` kept, the draw used up. -/
theorem test_rnd : ∃ t, step ((regs 4 0x99 15 0x77).withFetchWord 16 0xC40F) = .next t ∧
    t.reg 4 = Config.rnd 0 &&& 0x0F ∧ t.reg 15 = 0x77 ∧ t.draws = 1 := ⟨_, rfl, rfl, rfl, rfl⟩

/-- V-D7: both coordinates wrap, bit 7 is the leftmost column. -/
theorem test_drw_wraps : (after 0xD121 (regsAt 1 0xC8 2 0x64 0x0300 [(0x300, 0x81)])).map
    (fun t => (t.fb.pixel 4 8, t.fb.pixel 4 9, t.fb.pixel 4 15, t.reg 15)) = some (true, false, true, 0x00) := by decide

/-- V-D9: a set cell is cleared and reported. -/
theorem test_drw_collides : (after 0xD121 ((regsAt 1 0 2 0 0x0300 [(0x300, 0xC0)]).setFb (Framebuffer.clear.toggle 0 1))).map
    (fun t => (t.fb.pixel 0 0, t.fb.pixel 0 1, t.reg 15)) = some (true, false, 0x01) := by decide

/-- V-K1. -/
theorem test_skp : (after 0xE29E { regs 2 15 0 0 with keys := State.reset.keys.set 15 true }).map (·.pc) = some 0x0204 := by
  decide

/-- V-K1: no masking. -/
theorem test_skp_above : (after 0xE29E { regs 2 0x15 0 0 with keys := State.reset.keys.set 5 true }).map
    (fun t => (t.faulted, t.faultCode)) = some (true, 5) := by decide

/-- V-K1. -/
theorem test_sknp : (after 0xE2A1 { regs 2 5 0 0 with keys := State.reset.keys.set 5 true }).map (·.pc) = some 0x0202 := by
  decide

/-- V-K1. -/
theorem test_sknp_above : (after 0xE2A1 (regs 2 0x10 0 0)).map (fun t => (t.faulted, t.faultCode)) = some (true, 5) := by decide

/-- V-K3: the lowest pressed key. -/
theorem test_ldVxK : (after 0xF20A { regs 2 0xEE 0 0 with keys := (State.reset.keys.set 9 true).set 3 true }).map
    (fun t => (t.reg 2, t.pc)) = some (0x03, 0x0202) := by decide

/-- V-K3: the stall. -/
theorem test_ldVxK_waits : (after 0xF20A (regs 2 0xEE 0 0)).map (fun t => (t.reg 2, t.pc)) = some (0xEE, 0x0200) := by decide

/-- V-T1. -/
theorem test_ldVxDt : (after 0xF307 ((regs 3 9 0 0).setDt 0x2A)).map (fun t => (t.reg 3, t.dt)) = some (0x2A, 0x2A) := by decide

/-- V-T1. -/
theorem test_ldDtVx : (after 0xF315 (regs 3 0xFF 0 0)).map (fun t => (t.dt, t.st)) = some (0xFF, 0x00) := by decide

/-- V-T1: no `SOUND_STOP`. -/
theorem test_ldStVx : (after 0xF318 ((regs 3 0 0 0).setSt 5)).map (fun t => (t.st, t.outbox)) = some (0x00, []) := by decide

/-! ### The host's events -/

/-- The state after one step with the event `e` coming. -/
def onEvent (e : Event) (s : State) : Option State :=
  match step { s with inbox := [e] } with
  | .next t => some t
  | .fault _ | .refused _ => none

/-- V-R3: the first `CYCLE` after reset fetches `0000`. -/
theorem test_cycle_from_reset : (onEvent .cycle State.reset).map (fun t => (t.faulted, t.faultCode)) = some (true, 2) := by decide

/-- V-C12. -/
theorem test_fetch_outside : (onEvent .cycle (State.reset.setPc 0x0FFF)).map (fun t => (t.faulted, t.faultCode)) =
    some (true, 1) := by decide

/-- V-R2. -/
theorem test_load : (onEvent (.load [0x12, 0x00]) State.reset).map (fun t => (t.mem, t.pc)) = some ([(0x200, 0x12)], 0x0200) := by
  decide

/-- V-K4. -/
theorem test_setKey : (onEvent (.setKey 9 true) State.reset).map (·.keys) = some (State.reset.keys.set 9 true) := by decide

/-- V-T2. -/
theorem test_tick_stops_sound : (onEvent .tick ((State.reset.setDt 1).setSt 1)).map (fun t => (t.dt, t.st, t.outbox)) =
    some (0, 0, [.soundStop]) := by decide

/-- V-T2. -/
theorem test_tick_counts : (onEvent .tick ((State.reset.setDt 0).setSt 2)).map (fun t => (t.dt, t.st, t.outbox)) =
    some (0, 1, []) := by decide

/-- V-D19. -/
theorem test_fbRead : (onEvent .fbRead (State.reset.setFb (Framebuffer.clear.toggle 2 3))).map (fun t => t.outbox.map fun
    | .frame p => (p.drop 130).take 3
    | .soundStop => []) = some [[false, true, false]] := by decide

/-- V-R1: from the faulted state, what was emitted stays. -/
theorem test_reset : (onEvent .reset { regs 5 9 0 0 with faulted := true, sp := 3, outbox := [.soundStop] }).map
    (fun t => (t.faulted, t.reg 5, t.sp, t.pc, t.outbox)) = some (false, 0, 0, 0x0200, [.soundStop]) := by decide

/-- R22: the default font has 80 bytes; glyph A stands at `0x32` (V-M2). -/
theorem test_defaultFont : Config.defaultFont.length = 80 ∧
    (Config.defaultFont.drop 0x32).take 5 = [0xF0, 0x90, 0xF0, 0x90, 0x90] := by decide

/-! ### Witnesses: each hypothesis of a statement, clause by clause, met at a boundary of its range -/

/-- The state after reset with the word `hi lo` at `a`, where `pc` stands. -/
def atWord (a : Word) (hi lo : Byte) : State := { State.reset with pc := a, mem := [(a.toNat, hi), (a.toNat + 1, lo)] }

/-- The state after reset with `I`. -/
def atIndex (i : Word) : State := State.reset.setI i

/-- The state after reset with `sp`. -/
def atDepth (n : Fin 17) : State := { State.reset with sp := n }

/-- The state after reset with one event coming. -/
def awaiting (e : Event) : State := { State.reset with inbox := [e] }

theorem canonical_index (i : Word) : MemCanonical (atIndex i) := Memory.wf_nil

theorem witness_DecodeInvertsEncode :
    Instr.wellFormed (.drw 15 15 15) = true ∧ Instr.wellFormed (.drw 0 0 0) = true ∧ Instr.wellFormed .cls = true := by decide

theorem witness_EncodeInvertsDecode : decodeWord 0xD7A5 = .ok (.drw 7 10 5) ∧ decodeWord 0xFF65 = .ok (.ldRegs 15) := ⟨rfl, rfl⟩

/-- Every clause: a word that decodes, one that fits a row, one that fits none, and one with the same row twice. -/
theorem witness_RecognizedWordsFitOneRow :
    decodeWord 0x812E = .ok (.shl 1 2) ∧ (∃ r ∈ opcodeMap, (0x812E : Word) &&& r.1 = r.2) ∧
    (∀ r ∈ opcodeMap, (0x812D : Word) &&& r.1 ≠ r.2) ∧
    ((0xF00F, 0x800E) ∈ opcodeMap ∧ (0x812E : Word) &&& 0xF00F = 0x800E) :=
  ⟨rfl, by decide, by simp [opcodeMap], by decide⟩

/-- At the last place a word can be fetched from. -/
theorem witness_StepRunsDecodedInstruction :
    CanFetch (atWord 0x0FFE 0x12 0x34) ∧ decodeWord (atWord 0x0FFE 0x12 0x34).wordAtPc = .ok (.jp 0x234) :=
  ⟨⟨rfl, rfl, by decide⟩, rfl⟩

/-- Both clauses, `pc` at 4095 and at 4094. -/
theorem witness_FetchAndDecodeFaults :
    ((State.reset.setPc 0x0FFF).nextEvent = .cycle ∧ (State.reset.setPc 0x0FFF).faulted = false ∧
      4094 < (State.reset.setPc 0x0FFF).pc.toNat) ∧
    ((State.reset.setPc 0x0FFE).nextEvent = .cycle ∧ (State.reset.setPc 0x0FFE).faulted = false ∧
      (State.reset.setPc 0x0FFE).pc.toNat ≤ 4094 ∧
      ∀ r ∈ opcodeMap, (State.reset.setPc 0x0FFE).wordAtPc &&& r.1 ≠ r.2) :=
  ⟨by decide, rfl, rfl, by decide, by
    rw [show (State.reset.setPc 0x0FFE).wordAtPc = 0x0000 by decide]; simp [opcodeMap]⟩

/-- Every event but `RESET`; `FBREAD` is the last clause's. -/
theorem witness_FaultedStateAbsorbs :
    ∀ e ∈ [Event.load [0x12], .setKey 15 true, .cycle, .tick, .fbRead],
      ({ awaiting e with faulted := true, faultCode := 3 } : State).faulted = true ∧
        ({ awaiting e with faulted := true, faultCode := 3 } : State).nextEvent ≠ .reset := by decide

theorem witness_ResetRestoresCreation : ({ awaiting .reset with faulted := true, pc := 0x0456 } : State).nextEvent = .reset := rfl

/-- Empty, one deep and full. -/
theorem witness_RetPopsReturnAddress :
    (atDepth 0).sp = 0 ∧ (atDepth 1).sp.val = (0 : Fin 16).val + 1 ∧ (atDepth 16).sp.val = (15 : Fin 16).val + 1 := by decide

/-- Full, empty and one below full. -/
theorem witness_CallPushesAndJumps :
    (atDepth 16).sp = 16 ∧ (atDepth 0).sp.val = (0 : Fin 16).val ∧ (atDepth 15).sp.val = (15 : Fin 16).val := by decide

theorem witness_SeSneRegSkip : (1 : BitVec 4) ≠ 0 ∧ (15 : BitVec 4) ≠ 0 := by decide

/-- The flag register is no other register (the clauses about the result); a sum of exactly 255 and of 256. -/
theorem witness_flagArithmetic :
    (0 : Reg) ≠ 15 ∧ (14 : Reg) ≠ 15 ∧
    ((regs 0 0xFF 1 0x00).reg 0).toNat + ((regs 0 0xFF 1 0x00).reg 1).toNat = 255 ∧
    ((regs 0 0xFF 1 0x01).reg 0).toNat + ((regs 0 0xFF 1 0x01).reg 1).toNat = 256 := by decide

/-- For either value of `SHIFT_USES_VY` there is the byte the statements about `8XY6` and `8XYE` speak of. -/
theorem witness_shifts :
    ∃ a : Byte, a = (if Config.shiftUsesVy then (regs 0 0x81 1 0x01).reg 1 else (regs 0 0x81 1 0x01).reg 0) := ⟨_, rfl⟩

/-- `I` at 4093 and at 4094. -/
theorem witness_LdBStoresDecimalDigits :
    MemCanonical (atIndex 0x0FFD) ∧ (atIndex 0x0FFD).base ≤ 4093 ∧ MemCanonical (atIndex 0x0FFE) ∧
      4093 < (atIndex 0x0FFE).base := ⟨canonical_index _, by decide, canonical_index _, by decide⟩

/-- The last address at 4095 and at 4096, for one register and for all. -/
theorem witness_StRegsStoresRegisters :
    (MemCanonical (atIndex 0x0FFF) ∧ (atIndex 0x0FFF).base + (0 : Reg).val ≤ 4095) ∧
    (MemCanonical (atIndex 0x1000) ∧ 4095 < (atIndex 0x1000).base + (0 : Reg).val) ∧
    (MemCanonical (atIndex 0x0FF0) ∧ (atIndex 0x0FF0).base + (15 : Reg).val ≤ 4095) ∧
    (MemCanonical (atIndex 0x0FF1) ∧ 4095 < (atIndex 0x0FF1).base + (15 : Reg).val) :=
  ⟨⟨canonical_index _, by decide⟩, ⟨canonical_index _, by decide⟩, ⟨canonical_index _, by decide⟩, canonical_index _, by decide⟩

/-- A memory with cells in it is canonical too. -/
theorem witness_MemCanonical : MemCanonical (atWord 0x0FFE 0x12 0x34) := by
  show Memory.wf _
  decide

/-- The last address at 4095 and at 4096; a register loaded and one kept. -/
theorem witness_LdRegsLoadsRegisters :
    (atIndex 0x0FFE).base + (1 : Reg).val ≤ 4095 ∧ 4095 < (atIndex 0x0FFF).base + (1 : Reg).val ∧ (1 : Reg) ≤ 1 ∧
      (1 : Reg) < 2 := by decide

theorem witness_StoredRegistersLoadBack : MemCanonical (atIndex 0x0FF0) ∧ (atIndex 0x0FF0).base + (15 : Reg).val ≤ 4095 :=
  ⟨canonical_index _, by decide⟩

/-- Two registers stored, and the last two of all. -/
theorem witness_StoreIsSeenByNextFetch :
    (MemCanonical (atIndex 0x0208) ∧ (0 + 1 < 16 ∧ (atIndex 0x0208).base + (1 : Reg).val ≤ 4095 ∧ 0 < (1 : Reg).val ∧
      (0x0208 : Word).toNat = (atIndex 0x0208).base + 0)) ∧
    (MemCanonical (atIndex 0x0FF0) ∧ (14 + 1 < 16 ∧ (atIndex 0x0FF0).base + (15 : Reg).val ≤ 4095 ∧ 14 < (15 : Reg).val ∧
      (0x0FFE : Word).toNat = (atIndex 0x0FF0).base + 14)) := ⟨⟨canonical_index _, by decide⟩, canonical_index _, by decide⟩

/-- A mask bit that is clear. -/
theorem witness_RndMasksTheDraw : (0x0F : Byte).getLsbD 4 = false := by decide

/-- No row at an index outside memory, the last byte at 4095 and at 4096; a lit cell that is set, and no lit cell. -/
theorem witness_DrwXorsSprite :
    (0 ≤ 15 ∧ (0 = 0 ∨ (atIndex 0xFFFF).base + 0 - 1 ≤ 4095)) ∧
    (15 ≤ 15 ∧ (15 = 0 ∨ (atIndex 0x0FF1).base + 15 - 1 ≤ 4095)) ∧
    (15 ≤ 15 ∧ 0 < 15 ∧ 4095 < (atIndex 0x0FF2).base + 15 - 1) := by decide

/-- The lit cell of V-D10, and its being set. -/
theorem witness_DrwXorsSprite_lit :
    Lit (regsAt 1 0 2 0 0x0300 [(0x300, 0x80)]) 0 0 1 0 0 ∧
      ((regsAt 1 0 2 0 0x0300 [(0x300, 0x80)]).setFb (Framebuffer.clear.toggle 0 0)).fb.pixel 0 0 = true :=
  ⟨⟨0, 0, by decide, by decide, by decide, by decide, by decide⟩, by decide⟩

/-- Cells that are not lit, when no row is drawn. -/
theorem witness_DrwXorsSprite_unlit (py : Fin 32) (px : Fin 64) : ¬ Lit State.reset 0 0 0 py px := by
  rintro ⟨row, -, h, -⟩
  exact absurd h (Nat.not_lt_zero row)

theorem witness_DrawingTwiceRestores :
    5 ≤ 15 ∧ (1 : Reg) ≠ 15 ∧ (14 : Reg) ≠ 15 ∧ (5 = 0 ∨ (atIndex 0x0FFB).base + 5 - 1 ≤ 4095) := by decide

/-- A key number of 15 and one of 16; a key pressed and one released. -/
theorem witness_keySkips :
    15 < ((regs 2 0x10 0 0).reg 2).toNat ∧ ((regs 2 0x0F 0 0).reg 2).toNat = (15 : Key).val ∧
      (awaiting .cycle).key 15 = false ∧ ({ awaiting .cycle with keys := State.reset.keys.set 15 true } : State).key 15 = true := by
  decide

/-- The last key alone, and none. -/
theorem witness_KeyWaitTakesLeastKey :
    (({ State.reset with keys := State.reset.keys.set 15 true } : State).key 15 = true ∧
      ∀ j : Key, j < 15 → ({ State.reset with keys := State.reset.keys.set 15 true } : State).key j = false) ∧
    ∀ k : Key, State.reset.key k = false := by decide

theorem witness_KeyWaitStalls :
    CanFetch (atWord 0x0FFE 0xF2 0x0A) ∧ (atWord 0x0FFE 0xF2 0x0A).inbox = [] ∧
      decodeWord (atWord 0x0FFE 0xF2 0x0A).wordAtPc = .ok (.ldVxK 2) ∧ ∀ k : Key, (atWord 0x0FFE 0xF2 0x0A).key k = false :=
  ⟨⟨rfl, rfl, by decide⟩, rfl, rfl, by decide⟩

/-- 3584 and 3585 bytes. -/
theorem witness_LoadCopiesToProgramStart :
    (MemCanonical (awaiting (.load (List.replicate 3584 0x12))) ∧ (awaiting (.load (List.replicate 3584 0x12))).faulted = false ∧
      (awaiting (.load (List.replicate 3584 0x12))).nextEvent = .load (List.replicate 3584 0x12) ∧
      (List.replicate 3584 (0x12 : Byte)).length ≤ 3584) ∧
    (MemCanonical (awaiting (.load (List.replicate 3585 0x12))) ∧ (awaiting (.load (List.replicate 3585 0x12))).faulted = false ∧
      (awaiting (.load (List.replicate 3585 0x12))).nextEvent = .load (List.replicate 3585 0x12) ∧
      3584 < (List.replicate 3585 (0x12 : Byte)).length) :=
  ⟨⟨Memory.wf_nil, rfl, rfl, by rw [List.length_replicate]⟩, Memory.wf_nil, rfl, rfl, by rw [List.length_replicate]; decide⟩

theorem witness_SetKeyChangesOneKey :
    (awaiting (.setKey 15 true)).faulted = false ∧ (awaiting (.setKey 15 true)).nextEvent = .setKey 15 true := by decide

/-- `ST` at 0, 1 and 2. -/
theorem witness_TickCountsTimersDown :
    (awaiting .tick).faulted = false ∧ (awaiting .tick).nextEvent = .tick ∧ ((awaiting .tick).setSt 1).st = 1 ∧
      (awaiting .tick).st ≠ 1 ∧ ((awaiting .tick).setSt 2).st ≠ 1 := by decide

/-- From `ST` 1 with one tick coming, and from 3 with three. -/
theorem witness_SoundStopOnTheLastTick :
    (((awaiting .tick).setSt 1).faulted = false ∧ 1 ≤ 1 ∧ ((awaiting .tick).setSt 1).st.toNat = 1 ∧
      ((awaiting .tick).setSt 1).inbox = List.replicate 1 .tick) ∧
    (({ State.reset with st := 3, inbox := [.tick, .tick, .tick] } : State).faulted = false ∧ 1 ≤ 3 ∧
      ({ State.reset with st := 3, inbox := [.tick, .tick, .tick] } : State).st.toNat = 3 ∧
      ({ State.reset with st := 3, inbox := [.tick, .tick, .tick] } : State).inbox = List.replicate 3 .tick) := by decide

theorem witness_FbReadIsRowMajor : (awaiting .fbRead).faulted = false ∧ (awaiting .fbRead).nextEvent = .fbRead := by decide

/-- An instruction that cannot fault and one that could. -/
theorem witness_ExecWritesOnlyItsRow :
    (faultOf (.jp 0x234) State.reset = none ∧ exec (.jp 0x234) State.reset = .next (State.reset.setPc 0x0234)) ∧
    (faultOf (.call 0x234) (atDepth 15) = none ∧ ∃ t, exec (.call 0x234) (atDepth 15) = .next t) := ⟨⟨rfl, rfl⟩, rfl, _, rfl⟩

theorem witness_NoInstructionReadsSoundTimer :
    faultOf (.stRegs 15) (atIndex 0x0FF0) = none ∧ faultOf .ret (atDepth 1) = none := by decide

theorem witness_ReturnUndoesCall : (atDepth 15).sp.val < 16 ∧ (0 : Fin 16).val ≠ (atDepth 15).sp.val := by decide

theorem witness_JumpToSelfRests :
    CanFetch (atWord 0x0212 0x12 0x12) ∧ (atWord 0x0212 0x12 0x12).inbox = [] ∧
      decodeWord (atWord 0x0212 0x12 0x12).wordAtPc = .ok (.jp 0x212) ∧ (atWord 0x0212 0x12 0x12).pc.toNat = (0x212 : BitVec 12).toNat :=
  ⟨⟨rfl, rfl, by decide⟩, rfl, rfl, by decide⟩

/-- A state whose memory a step writes. -/
theorem witness_StepKeepsMemoryCanonical :
    MemCanonical (awaiting (.load [0x12, 0x34])) ∧ ∃ t, step (awaiting (.load [0x12, 0x34])) = .next t := ⟨Memory.wf_nil, _, rfl⟩

/-- At both bounds of the invariant. -/
theorem witness_StepKeepsControlBounded :
    ControlBounded { State.reset with pc := 0x10FE, stack := State.reset.stack.set 0 4096 } ∧
      ∃ t, step { State.reset with pc := 0x10FE, stack := State.reset.stack.set 0 4096 } = .next t :=
  ⟨fun _ => by decide, _, rfl⟩

end Sys2Proof.Tests
end

section
/-! SUPPORT. Control transfer (40_control_transfer.md): the facts the statements about `pc` share, then the statements. -/

namespace Sys2Proof.Machine

/-- A state whose `pc` is moved keeps every other element. -/
theorem sameBut_setPc (s : State) (a : Word) : SameBut [.pc] s (s.setPc a) := by
  intro p hp
  cases p with
  | pc => exact absurd List.mem_cons_self hp
  | fault => exact ⟨rfl, rfl⟩
  | mem | v | stack | keys => exact fun _ => rfl
  | fb => exact fun _ _ => rfl
  | i | sp | dt | st | draws | inbox | outbox => rfl

/-- The fetch finds no word exactly when the word would leave memory (20_memory.md R65). -/
theorem fetch_eq_none_iff (s : State) : s.fetch = none ↔ 4094 < s.pc.toNat := by
  simp [fetch_eq]

theorem decodeWord_jp (nnn : BitVec 12) : decodeWord (packNNN 0x1 nnn) = .ok (.jp nnn) := by
  simp [decodeWord]

theorem exec_jp (nnn : BitVec 12) (s : State) : exec (.jp nnn) s = .next (s.setPc (zext12 nnn)) := rfl

/-- Settles O11: the jump only moves `pc`, to the operand zero-extended, and a fetch depends on `pc` alone for whether it
finds a word. -/
theorem jpSetsPc : Obligations.JpSetsPc := by
  intro nnn s
  have hpc : (s.setPc (zext12 nnn)).pc.toNat = nnn.toNat := toNat_zext12 nnn
  refine ⟨decodeWord_jp nnn, _, exec_jp nnn s, hpc, sameBut_setPc s _, ?_⟩
  rw [fetch_eq_none_iff, hpc]

end Sys2Proof.Machine
end

section
/-! SUPPORT. Conditional skips (41_conditional_skips.md): every skip is `skipIf`, so its frame is said once. -/

namespace Sys2Proof.Machine

/-- A skip moves at most `pc`, whether it is taken or not. -/
theorem sameBut_skipIf (s : State) (c : Bool) : SameBut [.pc] s (s.skipIf c) := by
  rw [skipIf_eq]
  exact sameBut_setPc s _

theorem decodeWord_seByte (x : Reg) (nn : Byte) : decodeWord (packXNN 0x3 x nn) = .ok (.seByte x nn) := by
  simp [decodeWord]

theorem decodeWord_sneByte (x : Reg) (nn : Byte) : decodeWord (packXNN 0x4 x nn) = .ok (.sneByte x nn) := by
  simp [decodeWord]

theorem exec_seByte (x : Reg) (nn : Byte) (s : State) : exec (.seByte x nn) s = .next (s.skipIf (s.reg x == nn)) := rfl

theorem exec_sneByte (x : Reg) (nn : Byte) (s : State) : exec (.sneByte x nn) s = .next (s.skipIf (s.reg x != nn)) := rfl

/-- Settles O14: the two instructions are `skipIf` under complementary conditions, so they share its frame. -/
theorem seSneByteSkip : Obligations.SeSneByteSkip := by
  intro x nn s
  refine ⟨decodeWord_seByte x nn, decodeWord_sneByte x nn, ⟨_, exec_seByte x nn s, sameBut_skipIf s _, ?_⟩,
    ⟨_, exec_sneByte x nn s, sameBut_skipIf s _, ?_⟩⟩
  · simp
  · by_cases h : s.reg x = nn <;> simp [h]

end Sys2Proof.Machine
end

section
/-! SUPPORT. Register load and plain addition (42_load_and_alu.md R140 to R142): each is one `setReg`, so the frame of a
register write is said once. -/

namespace Sys2Proof.Machine

/-- A register write keeps every element but the registers. -/
theorem sameBut_setReg (s : State) (x : Reg) (b : Byte) : SameBut [.v] s (s.setReg x b) := by
  intro p hp
  cases p with
  | v => exact absurd List.mem_cons_self hp
  | fault => exact ⟨rfl, rfl⟩
  | mem | stack | keys => exact fun _ => rfl
  | fb => exact fun _ _ => rfl
  | pc | i | sp | dt | st | draws | inbox | outbox => rfl

/-- A register write keeps every other register, `VF` among them. -/
theorem regsSameBut_setReg (s : State) (x : Reg) (b : Byte) : RegsSameBut [x] s (s.setReg x b) :=
  fun r hr => reg_setReg_ne s x r b (List.ne_of_not_mem_cons hr).symm

theorem toNat_addCarry (a b : Byte) : (addCarry a b).1.toNat = (a.toNat + b.toNat) % 256 :=
  BitVec.toNat_ofNat _ 8

theorem decodeWord_ldByte (x : Reg) (nn : Byte) : decodeWord (packXNN 0x6 x nn) = .ok (.ldByte x nn) := by
  simp [decodeWord]

theorem decodeWord_addByte (x : Reg) (nn : Byte) : decodeWord (packXNN 0x7 x nn) = .ok (.addByte x nn) := by
  simp [decodeWord]

theorem decodeWord_ldReg (x y : Reg) : decodeWord (packXYN 0x8 x y 0x0) = .ok (.ldReg x y) := by
  simp [decodeWord, decodeFamily8]

theorem exec_ldByte (x : Reg) (nn : Byte) (s : State) : exec (.ldByte x nn) s = .next (s.setReg x nn) := rfl

theorem exec_addByte (x : Reg) (nn : Byte) (s : State) :
    exec (.addByte x nn) s = .next (s.setReg x (addCarry (s.reg x) nn).1) := rfl

theorem exec_ldReg (x y : Reg) (s : State) : exec (.ldReg x y) s = .next (s.setReg x (s.reg y)) := rfl

/-- Settles O16: the instruction is one register write of the immediate. -/
theorem ldByteSetsRegister : Obligations.LdByteSetsRegister := by
  intro x nn s
  exact ⟨decodeWord_ldByte x nn, _, exec_ldByte x nn s, reg_setReg_self s x nn, regsSameBut_setReg s x nn,
    sameBut_setReg s x nn⟩

/-- Settles O17: the sum is written without its carry, by one register write, so `VF` is kept with the other registers. -/
theorem addByteWrapsWithoutFlag : Obligations.AddByteWrapsWithoutFlag := by
  intro x nn s
  refine ⟨decodeWord_addByte x nn, _, exec_addByte x nn s, ?_, regsSameBut_setReg s x _, sameBut_setReg s x _⟩
  rw [reg_setReg_self, toNat_addCarry]

/-- Settles O18: the instruction is one register write of the value `V[Y]` has before it. -/
theorem ldRegCopiesRegister : Obligations.LdRegCopiesRegister := by
  intro x y s
  exact ⟨decodeWord_ldReg x y, _, exec_ldReg x y s, reg_setReg_self s x _, regsSameBut_setReg s x _,
    sameBut_setReg s x _⟩

end Sys2Proof.Machine
end

section
/-! SUPPORT. Setting and adding to `I` (43_index_and_memory.md R160, R161): each is one `setI`, so its frame is said once. -/

namespace Sys2Proof.Machine

/-- A write of `I` keeps every other element, the registers and the fault latch among them. -/
theorem sameBut_setI (s : State) (a : Word) : SameBut [.i] s (s.setI a) := by
  intro p hp
  cases p with
  | i => exact absurd List.mem_cons_self hp
  | fault => exact ⟨rfl, rfl⟩
  | mem | v | stack | keys => exact fun _ => rfl
  | fb => exact fun _ _ => rfl
  | pc | sp | dt | st | draws | inbox | outbox => rfl

theorem decodeWord_ldI (nnn : BitVec 12) : decodeWord (packNNN 0xA nnn) = .ok (.ldI nnn) := by
  simp [decodeWord]

theorem decodeWord_addI (x : Reg) : decodeWord (packXNN 0xF x 0x1E) = .ok (.addI x) := by
  simp [decodeWord, decodeFamilyF]

theorem exec_ldI (nnn : BitVec 12) (s : State) : exec (.ldI nnn) s = .next (s.setI (zext12 nnn)) := rfl

theorem exec_addI (x : Reg) (s : State) : exec (.addI x) s = .next (s.setI (s.i + zext8 (s.reg x))) := rfl

/-- Settles O25: the instruction is one write of `I`, of the operand zero-extended. -/
theorem ldISetsIndex : Obligations.LdISetsIndex := by
  intro nnn s
  exact ⟨decodeWord_ldI nnn, _, exec_ldI nnn s, toNat_zext12 nnn, sameBut_setI s _⟩

/-- Settles O26: the instruction is one write of `I`, of a 16-bit sum, which wraps by itself. -/
theorem addIWrapsAtSixteenBits : Obligations.AddIWrapsAtSixteenBits := by
  intro x s
  refine ⟨decodeWord_addI x, _, exec_addI x s, ?_, sameBut_setI s _⟩
  rw [setI_i, BitVec.toNat_add, toNat_zext8]

end Sys2Proof.Machine
end

section
/-! SUPPORT. Clearing the display (45_display.md R175): the instruction is one write of the framebuffer, so its frame is that
of `setFb`. -/

namespace Sys2Proof.Machine

/-- A write of the framebuffer keeps every other element, `VF` among the registers. -/
theorem sameBut_setFb (s : State) (f : Framebuffer) : SameBut [.fb] s (s.setFb f) := by
  intro p hp
  cases p with
  | fb => exact absurd List.mem_cons_self hp
  | fault => exact ⟨rfl, rfl⟩
  | mem | v | stack | keys => exact fun _ => rfl
  | pc | i | sp | dt | st | draws | inbox | outbox => rfl

theorem decodeWord_cls : decodeWord 0x00E0 = .ok .cls := rfl

theorem exec_cls (s : State) : exec .cls s = .next (s.setFb Framebuffer.clear) := rfl

/-- Settles O34: the instruction is one write of the framebuffer, of the one whose cells are all false. -/
theorem clsClearsFramebuffer : Obligations.ClsClearsFramebuffer := by
  refine ⟨decodeWord_cls, fun s => ⟨_, exec_cls s, fun y x => ?_, sameBut_setFb s _⟩⟩
  rw [setFb_fb, pixel_clear]

end Sys2Proof.Machine
end

section
/-! SUPPORT. The timer instructions (47_timers.md R195 to R197): FX07 is one register write, FX15 and FX18 are one timer write
each, so the frame of a timer write is said once per timer. -/

namespace Sys2Proof.Machine

/-- A write of the delay timer keeps every other element, the sound timer and the outputs among them. -/
theorem sameBut_setDt (s : State) (b : Byte) : SameBut [.dt] s (s.setDt b) := by
  intro p hp
  cases p with
  | dt => exact absurd List.mem_cons_self hp
  | fault => exact ⟨rfl, rfl⟩
  | mem | v | stack | keys => exact fun _ => rfl
  | fb => exact fun _ _ => rfl
  | pc | i | sp | st | draws | inbox | outbox => rfl

/-- A write of the sound timer keeps every other element, the delay timer and the outputs among them. -/
theorem sameBut_setSt (s : State) (b : Byte) : SameBut [.st] s (s.setSt b) := by
  intro p hp
  cases p with
  | st => exact absurd List.mem_cons_self hp
  | fault => exact ⟨rfl, rfl⟩
  | mem | v | stack | keys => exact fun _ => rfl
  | fb => exact fun _ _ => rfl
  | pc | i | sp | dt | draws | inbox | outbox => rfl

theorem decodeWord_ldVxDt (x : Reg) : decodeWord (packXNN 0xF x 0x07) = .ok (.ldVxDt x) := by
  simp [decodeWord, decodeFamilyF]

theorem decodeWord_ldDtVx (x : Reg) : decodeWord (packXNN 0xF x 0x15) = .ok (.ldDtVx x) := by
  simp [decodeWord, decodeFamilyF]

theorem decodeWord_ldStVx (x : Reg) : decodeWord (packXNN 0xF x 0x18) = .ok (.ldStVx x) := by
  simp [decodeWord, decodeFamilyF]

theorem exec_ldVxDt (x : Reg) (s : State) : exec (.ldVxDt x) s = .next (s.setReg x s.dt) := rfl

theorem exec_ldDtVx (x : Reg) (s : State) : exec (.ldDtVx x) s = .next (s.setDt (s.reg x)) := rfl

theorem exec_ldStVx (x : Reg) (s : State) : exec (.ldStVx x) s = .next (s.setSt (s.reg x)) := rfl

/-- Settles O41: the instruction is one register write of the delay timer, so `DT` is kept with the other elements. -/
theorem ldVxDtReadsDelayTimer : Obligations.LdVxDtReadsDelayTimer := by
  intro x s
  exact ⟨decodeWord_ldVxDt x, _, exec_ldVxDt x s, reg_setReg_self s x _, regsSameBut_setReg s x _, sameBut_setReg s x _⟩

/-- Settles O42: each instruction is one write of its timer, and neither write appends an output. -/
theorem timersAreSetFromRegister : Obligations.TimersAreSetFromRegister := by
  intro x s
  exact ⟨decodeWord_ldDtVx x, decodeWord_ldStVx x, ⟨_, exec_ldDtVx x s, setDt_dt s _, sameBut_setDt s _⟩,
    ⟨_, exec_ldStVx x s, setSt_st s _, sameBut_setSt s _⟩⟩

end Sys2Proof.Machine
end

section
/-! SUPPORT. Decoding the rows of the opcode map (30_encoding.md R94), one equation per instruction, and what they give
together: the encoder and the decoder are inverse, and a word decodes exactly when it fits a row. -/

namespace Sys2Proof.Machine

/-! ### One equation per row -/

theorem decodeWord_ret : decodeWord 0x00EE = .ok .ret := rfl

theorem decodeWord_call (nnn : BitVec 12) : decodeWord (packNNN 0x2 nnn) = .ok (.call nnn) := by
  simp [decodeWord]

theorem decodeWord_seReg (x y : Reg) : decodeWord (packXYN 0x5 x y 0x0) = .ok (.seReg x y) := by
  simp [decodeWord]

theorem decodeWord_sneReg (x y : Reg) : decodeWord (packXYN 0x9 x y 0x0) = .ok (.sneReg x y) := by
  simp [decodeWord]

theorem decodeWord_orReg (x y : Reg) : decodeWord (packXYN 0x8 x y 0x1) = .ok (.orReg x y) := by
  simp [decodeWord, decodeFamily8]

theorem decodeWord_andReg (x y : Reg) : decodeWord (packXYN 0x8 x y 0x2) = .ok (.andReg x y) := by
  simp [decodeWord, decodeFamily8]

theorem decodeWord_xorReg (x y : Reg) : decodeWord (packXYN 0x8 x y 0x3) = .ok (.xorReg x y) := by
  simp [decodeWord, decodeFamily8]

theorem decodeWord_addReg (x y : Reg) : decodeWord (packXYN 0x8 x y 0x4) = .ok (.addReg x y) := by
  simp [decodeWord, decodeFamily8]

theorem decodeWord_sub (x y : Reg) : decodeWord (packXYN 0x8 x y 0x5) = .ok (.sub x y) := by
  simp [decodeWord, decodeFamily8]

theorem decodeWord_shr (x y : Reg) : decodeWord (packXYN 0x8 x y 0x6) = .ok (.shr x y) := by
  simp [decodeWord, decodeFamily8]

theorem decodeWord_subn (x y : Reg) : decodeWord (packXYN 0x8 x y 0x7) = .ok (.subn x y) := by
  simp [decodeWord, decodeFamily8]

theorem decodeWord_shl (x y : Reg) : decodeWord (packXYN 0x8 x y 0xE) = .ok (.shl x y) := by
  simp [decodeWord, decodeFamily8]

theorem decodeWord_jpV0 (nnn : BitVec 12) : decodeWord (packNNN 0xB nnn) = .ok (.jpV0 nnn) := by
  simp [decodeWord]

theorem decodeWord_rnd (x : Reg) (nn : Byte) : decodeWord (packXNN 0xC x nn) = .ok (.rnd x nn) := by
  simp [decodeWord]

/-- The row count is read back as the value of its digit. -/
theorem decodeWord_packXYN_drw (x y : Reg) (n : BitVec 4) : decodeWord (packXYN 0xD x y n) = .ok (.drw x y n.toNat) := by
  simp [decodeWord]

theorem decodeWord_drw (x y : Reg) (n : Nat) (hn : n ≤ 15) :
    decodeWord (packXYN 0xD x y (BitVec.ofNat 4 n)) = .ok (.drw x y n) := by
  rw [decodeWord_packXYN_drw, BitVec.toNat_ofNat, Nat.mod_eq_of_lt (by omega)]

theorem decodeWord_skp (x : Reg) : decodeWord (packXNN 0xE x 0x9E) = .ok (.skp x) := by
  simp [decodeWord, decodeFamilyE]

theorem decodeWord_sknp (x : Reg) : decodeWord (packXNN 0xE x 0xA1) = .ok (.sknp x) := by
  simp [decodeWord, decodeFamilyE]

theorem decodeWord_ldVxK (x : Reg) : decodeWord (packXNN 0xF x 0x0A) = .ok (.ldVxK x) := by
  simp [decodeWord, decodeFamilyF]

theorem decodeWord_ldF (x : Reg) : decodeWord (packXNN 0xF x 0x29) = .ok (.ldF x) := by
  simp [decodeWord, decodeFamilyF]

theorem decodeWord_ldB (x : Reg) : decodeWord (packXNN 0xF x 0x33) = .ok (.ldB x) := by
  simp [decodeWord, decodeFamilyF]

theorem decodeWord_stRegs (x : Reg) : decodeWord (packXNN 0xF x 0x55) = .ok (.stRegs x) := by
  simp [decodeWord, decodeFamilyF]

theorem decodeWord_ldRegs (x : Reg) : decodeWord (packXNN 0xF x 0x65) = .ok (.ldRegs x) := by
  simp [decodeWord, decodeFamilyF]

/-! ### Decode after encode -/

theorem decodeWord_encodeWord (i : Instr) (h : i.wellFormed = true) : decodeWord (encodeWord i) = .ok i := by
  cases i with
  | cls => exact decodeWord_cls
  | ret => exact decodeWord_ret
  | jp nnn => exact decodeWord_jp nnn
  | call nnn => exact decodeWord_call nnn
  | seByte x nn => exact decodeWord_seByte x nn
  | sneByte x nn => exact decodeWord_sneByte x nn
  | seReg x y => exact decodeWord_seReg x y
  | sneReg x y => exact decodeWord_sneReg x y
  | ldByte x nn => exact decodeWord_ldByte x nn
  | addByte x nn => exact decodeWord_addByte x nn
  | ldReg x y => exact decodeWord_ldReg x y
  | orReg x y => exact decodeWord_orReg x y
  | andReg x y => exact decodeWord_andReg x y
  | xorReg x y => exact decodeWord_xorReg x y
  | addReg x y => exact decodeWord_addReg x y
  | sub x y => exact decodeWord_sub x y
  | shr x y => exact decodeWord_shr x y
  | subn x y => exact decodeWord_subn x y
  | shl x y => exact decodeWord_shl x y
  | ldI nnn => exact decodeWord_ldI nnn
  | jpV0 nnn => exact decodeWord_jpV0 nnn
  | rnd x nn => exact decodeWord_rnd x nn
  | drw x y n => exact decodeWord_drw x y n (of_decide_eq_true h)
  | skp x => exact decodeWord_skp x
  | sknp x => exact decodeWord_sknp x
  | ldVxDt x => exact decodeWord_ldVxDt x
  | ldVxK x => exact decodeWord_ldVxK x
  | ldDtVx x => exact decodeWord_ldDtVx x
  | ldStVx x => exact decodeWord_ldStVx x
  | addI x => exact decodeWord_addI x
  | ldF x => exact decodeWord_ldF x
  | ldB x => exact decodeWord_ldB x
  | stRegs x => exact decodeWord_stRegs x
  | ldRegs x => exact decodeWord_ldRegs x

/-- Settles O1: the bytes of a word decode as the word does, and the word of an instruction decodes to it. -/
theorem decodeInvertsEncode : Obligations.DecodeInvertsEncode := by
  intro i rest h
  rw [encode, decode_bytesOfWord, decodeWord_encodeWord i h]
  rfl

/-! ### Encode after decode -/

/-- Packing the operand fields of a word under the opcode and sub-opcode it has gives the word back. -/
theorem packNNN_of_fieldOp {w : Word} {op : BitVec 4} (h : fieldOp w = op) : packNNN op (fieldNNN w) = w :=
  h ▸ packNNN_fields w

theorem packXNN_of_fieldOp {w : Word} {op : BitVec 4} (h : fieldOp w = op) : packXNN op (fieldX w) (fieldNN w) = w :=
  h ▸ packXNN_fields w

theorem packXNN_of_fields {w : Word} {op : BitVec 4} {nn : Byte} (h : fieldOp w = op) (hn : fieldNN w = nn) :
    packXNN op (fieldX w) nn = w :=
  hn ▸ packXNN_of_fieldOp h

theorem packXYN_of_fields {w : Word} {op n : BitVec 4} (h : fieldOp w = op) (hn : fieldN w = n) :
    packXYN op (fieldX w) (fieldY w) n = w :=
  h ▸ hn ▸ packXYN_fields w

theorem encodeWord_of_decodeFamily0 {w : Word} {i : Instr} (h : fieldOp w = 0x0) (hd : decodeFamily0 w = .ok i) :
    encodeWord i = w ∧ i.wellFormed = true := by
  unfold decodeFamily0 at hd
  split at hd
  case h_1 hn => cases hd; exact ⟨by rw [← packNNN_of_fieldOp h, hn]; rfl, rfl⟩
  case h_2 hn => cases hd; exact ⟨by rw [← packNNN_of_fieldOp h, hn]; rfl, rfl⟩
  case h_3 => cases hd

theorem encodeWord_of_decodeFamily8 {w : Word} {i : Instr} (h : fieldOp w = 0x8) (hd : decodeFamily8 w = .ok i) :
    encodeWord i = w ∧ i.wellFormed = true := by
  unfold decodeFamily8 at hd
  split at hd
  case h_10 => cases hd
  all_goals
    next hn => cases hd; exact ⟨packXYN_of_fields h hn, rfl⟩

theorem encodeWord_of_decodeFamilyE {w : Word} {i : Instr} (h : fieldOp w = 0xE) (hd : decodeFamilyE w = .ok i) :
    encodeWord i = w ∧ i.wellFormed = true := by
  unfold decodeFamilyE at hd
  split at hd
  case h_3 => cases hd
  all_goals
    next hn => cases hd; exact ⟨packXNN_of_fields h hn, rfl⟩

theorem encodeWord_of_decodeFamilyF {w : Word} {i : Instr} (h : fieldOp w = 0xF) (hd : decodeFamilyF w = .ok i) :
    encodeWord i = w ∧ i.wellFormed = true := by
  unfold decodeFamilyF at hd
  split at hd
  case h_10 => cases hd
  all_goals
    next hn => cases hd; exact ⟨packXNN_of_fields h hn, rfl⟩

/-- Every arm keeps the word; the arm `h_k` of the decoder is family `k - 1`. -/
theorem encodeWord_of_decodeWord {w : Word} {i : Instr} (hd : decodeWord w = .ok i) :
    encodeWord i = w ∧ i.wellFormed = true := by
  unfold decodeWord at hd
  split at hd
  case h_1 h => exact encodeWord_of_decodeFamily0 h hd
  case h_6 h | h_10 h =>
    split at hd
    · next hn => cases hd; exact ⟨packXYN_of_fields h hn, rfl⟩
    · cases hd
  case h_9 h => exact encodeWord_of_decodeFamily8 h hd
  case h_15 h => exact encodeWord_of_decodeFamilyE h hd
  case h_16 h => exact encodeWord_of_decodeFamilyF h hd
  case h_17 => cases hd
  case h_14 h =>
    cases hd
    have hn := (fieldN w).isLt
    exact ⟨packXYN_of_fields h (by simp), decide_eq_true (by omega)⟩
  case h_2 h | h_3 h | h_11 h | h_12 h => cases hd; exact ⟨packNNN_of_fieldOp h, rfl⟩
  case h_4 h | h_5 h | h_7 h | h_8 h | h_13 h => cases hd; exact ⟨packXNN_of_fieldOp h, rfl⟩

/-- Settles O2: every arm of the decoder keeps all fields of the word, the constant ones as the opcode. -/
theorem encodeInvertsDecode : Obligations.EncodeInvertsDecode :=
  fun _ _ => encodeWord_of_decodeWord

/-- The decoder has one rejection, and it names the word (30_encoding.md R96). -/
theorem decodeWord_error {w : Word} {e : Reject} (hd : decodeWord w = .error e) : e = .unrecognized w := by
  unfold decodeWord decodeFamily0 decodeFamily8 decodeFamilyE decodeFamilyF at hd
  split at hd
  case h_1 | h_6 | h_9 | h_10 | h_15 | h_16 => split at hd <;> simp_all
  all_goals simp_all

/-! ### The opcode map -/

/-- The word of every instruction fits the row of the instruction. -/
theorem encodeWord_fits_row (i : Instr) : Laws.RowWord.Statement i := by
  cases i with
  | cls => exact Laws.RowWord.cls
  | ret => exact Laws.RowWord.ret
  | jp nnn => exact Laws.RowWord.jp nnn
  | call nnn => exact Laws.RowWord.call nnn
  | seByte x nn => exact Laws.RowWord.seByte x nn
  | sneByte x nn => exact Laws.RowWord.sneByte x nn
  | seReg x y => exact Laws.RowWord.seReg x y
  | sneReg x y => exact Laws.RowWord.sneReg x y
  | ldByte x nn => exact Laws.RowWord.ldByte x nn
  | addByte x nn => exact Laws.RowWord.addByte x nn
  | ldReg x y => exact Laws.RowWord.ldReg x y
  | orReg x y => exact Laws.RowWord.orReg x y
  | andReg x y => exact Laws.RowWord.andReg x y
  | xorReg x y => exact Laws.RowWord.xorReg x y
  | addReg x y => exact Laws.RowWord.addReg x y
  | sub x y => exact Laws.RowWord.sub x y
  | shr x y => exact Laws.RowWord.shr x y
  | subn x y => exact Laws.RowWord.subn x y
  | shl x y => exact Laws.RowWord.shl x y
  | ldI nnn => exact Laws.RowWord.ldI nnn
  | jpV0 nnn => exact Laws.RowWord.jpV0 nnn
  | rnd x nn => exact Laws.RowWord.rnd x nn
  | drw x y n => exact Laws.RowWord.drw x y n
  | skp x => exact Laws.RowWord.skp x
  | sknp x => exact Laws.RowWord.sknp x
  | ldVxDt x => exact Laws.RowWord.ldVxDt x
  | ldVxK x => exact Laws.RowWord.ldVxK x
  | ldDtVx x => exact Laws.RowWord.ldDtVx x
  | ldStVx x => exact Laws.RowWord.ldStVx x
  | addI x => exact Laws.RowWord.addI x
  | ldF x => exact Laws.RowWord.ldF x
  | ldB x => exact Laws.RowWord.ldB x
  | stRegs x => exact Laws.RowWord.stRegs x
  | ldRegs x => exact Laws.RowWord.ldRegs x

/-- A word that decodes fits the row of its instruction. -/
theorem fits_row_of_decodeWord {w : Word} {i : Instr} (hd : decodeWord w = .ok i) :
    ∃ r, opcodeMap[i.row]? = some r ∧ w &&& r.1 = r.2 := by
  obtain ⟨rfl, -⟩ := encodeWord_of_decodeWord hd
  exact encodeWord_fits_row i

/-- Every word that fits the row decodes. -/
def RowDecodes (r : Word × Word) : Prop := ∀ w : Word, w &&& r.1 = r.2 → ∃ i, decodeWord w = .ok i

/-- A row whose mask keeps every digit fits one word. -/
theorem rowDecodes_fixed {w : Word} {i : Instr} (h : decodeWord w = .ok i) : RowDecodes (0xFFFF, w) := by
  intro v hv
  obtain rfl : v = w := BitVec.and_allOnes.symm.trans hv
  exact ⟨i, h⟩

/-- A row whose mask keeps the first digit leaves `NNN` free. -/
theorem rowDecodes_nnn (op : BitVec 4) {f : BitVec 12 → Instr} (h : ∀ nnn, decodeWord (packNNN op nnn) = .ok (f nnn)) :
    RowDecodes (0xF000, digits op 0 0 0) := by
  intro w hw
  rw [← packNNN_fields w] at hw ⊢
  obtain ⟨rfl, -⟩ := digits_inj.1 ((Laws.RowWord.packNNN_fits _ _).symm.trans hw)
  exact ⟨_, h _⟩

/-- The same row for an instruction with the fields `X` and `NN`. -/
theorem rowDecodes_xnn (op : BitVec 4) {f : Reg → Byte → Instr} (h : ∀ x nn, decodeWord (packXNN op x nn) = .ok (f x nn)) :
    RowDecodes (0xF000, digits op 0 0 0) := by
  intro w hw
  rw [← packXNN_fields w] at hw ⊢
  obtain ⟨rfl, -⟩ := digits_inj.1 ((Laws.RowWord.packXNN_fits _ _ _).symm.trans hw)
  exact ⟨_, h _ _⟩

/-- The same row for an instruction with the fields `X`, `Y` and `N`. -/
theorem rowDecodes_xyn (op : BitVec 4) {f : Reg → Reg → BitVec 4 → Instr}
    (h : ∀ x y n, decodeWord (packXYN op x y n) = .ok (f x y n)) : RowDecodes (0xF000, digits op 0 0 0) := by
  intro w hw
  rw [← packXYN_fields w] at hw ⊢
  obtain ⟨rfl, -⟩ := digits_inj.1 ((Laws.RowWord.packXYN_fits _ _ _ _).symm.trans hw)
  exact ⟨_, h _ _ _⟩

/-- A row whose mask keeps the first and the last digit leaves `X` and `Y` free. -/
theorem rowDecodes_xys (op n : BitVec 4) {f : Reg → Reg → Instr} (h : ∀ x y, decodeWord (packXYN op x y n) = .ok (f x y)) :
    RowDecodes (0xF00F, digits op 0 0 n) := by
  intro w hw
  rw [← packXYN_fields w] at hw ⊢
  obtain ⟨rfl, -, -, rfl⟩ := digits_inj.1 ((Laws.RowWord.packXYS_fits _ _ _ _).symm.trans hw)
  exact ⟨_, h _ _⟩

/-- A row whose mask drops the second digit leaves `X` free. -/
theorem rowDecodes_xss (op : BitVec 4) (nn : Byte) {f : Reg → Instr} (h : ∀ x, decodeWord (packXNN op x nn) = .ok (f x)) :
    RowDecodes (0xF0FF, digits op 0 (nn.extractLsb' 4 4) (nn.extractLsb' 0 4)) := by
  intro w hw
  rw [← packXNN_fields w] at hw ⊢
  obtain ⟨rfl, -, hhi, hlo⟩ := digits_inj.1 ((Laws.RowWord.packXSS_fits _ _ _).symm.trans hw)
  rw [← nn_digits nn, ← hhi, ← hlo, nn_digits] at h
  exact ⟨_, h _⟩

/-- Every row of the opcode map decodes: each is the row of one instruction's format. -/
theorem rowDecodes_of_mem : ∀ r ∈ opcodeMap, RowDecodes r := by
  simp only [opcodeMap, List.forall_mem_append, List.forall_mem_cons]
  exact ⟨⟨⟨rowDecodes_fixed decodeWord_cls, rowDecodes_fixed decodeWord_ret, rowDecodes_nnn 0x1 decodeWord_jp,
      rowDecodes_nnn 0x2 decodeWord_call, rowDecodes_xnn 0x3 decodeWord_seByte, rowDecodes_xnn 0x4 decodeWord_sneByte,
      rowDecodes_xys 0x5 0x0 decodeWord_seReg, rowDecodes_xys 0x9 0x0 decodeWord_sneReg,
      rowDecodes_xnn 0x6 decodeWord_ldByte, rowDecodes_xnn 0x7 decodeWord_addByte,
      rowDecodes_xys 0x8 0x0 decodeWord_ldReg, rowDecodes_xys 0x8 0x1 decodeWord_orReg, List.forall_mem_nil _⟩,
    rowDecodes_xys 0x8 0x2 decodeWord_andReg, rowDecodes_xys 0x8 0x3 decodeWord_xorReg,
    rowDecodes_xys 0x8 0x4 decodeWord_addReg, rowDecodes_xys 0x8 0x5 decodeWord_sub,
    rowDecodes_xys 0x8 0x6 decodeWord_shr, rowDecodes_xys 0x8 0x7 decodeWord_subn,
    rowDecodes_xys 0x8 0xE decodeWord_shl, rowDecodes_nnn 0xA decodeWord_ldI, rowDecodes_nnn 0xB decodeWord_jpV0,
    rowDecodes_xnn 0xC decodeWord_rnd, rowDecodes_xyn 0xD decodeWord_packXYN_drw, List.forall_mem_nil _⟩,
    rowDecodes_xss 0xE 0x9E decodeWord_skp, rowDecodes_xss 0xE 0xA1 decodeWord_sknp,
    rowDecodes_xss 0xF 0x07 decodeWord_ldVxDt, rowDecodes_xss 0xF 0x0A decodeWord_ldVxK,
    rowDecodes_xss 0xF 0x15 decodeWord_ldDtVx, rowDecodes_xss 0xF 0x18 decodeWord_ldStVx,
    rowDecodes_xss 0xF 0x1E decodeWord_addI, rowDecodes_xss 0xF 0x29 decodeWord_ldF,
    rowDecodes_xss 0xF 0x33 decodeWord_ldB, rowDecodes_xss 0xF 0x55 decodeWord_stRegs,
    rowDecodes_xss 0xF 0x65 decodeWord_ldRegs, List.forall_mem_nil _⟩

/-- A word that fits no row is rejected by name: it cannot decode, and the decoder has one rejection. -/
theorem decodeWord_of_no_row {w : Word} (h : ∀ r ∈ opcodeMap, w &&& r.1 ≠ r.2) :
    decodeWord w = .error (.unrecognized w) := by
  cases hd : decodeWord w with
  | error e => rw [decodeWord_error hd]
  | ok i =>
    obtain ⟨r, hr, hw⟩ := fits_row_of_decodeWord hd
    exact absurd hw (h r (List.mem_of_getElem? hr))

/-- Two rows disagree on a bit that both masks keep. -/
def RowsClash (r r' : Word × Word) : Prop := r.1 &&& r'.1 &&& (r.2 ^^^ r'.2) ≠ 0

theorem RowsClash.symm {r r' : Word × Word} (h : RowsClash r r') : RowsClash r' r := by
  rwa [RowsClash, BitVec.and_comm r'.1, BitVec.xor_comm]

/-- No word fits both of two rows that clash. -/
theorem RowsClash.not_both {r r' : Word × Word} (h : RowsClash r r') {w : Word} (hr : w &&& r.1 = r.2) :
    w &&& r'.1 ≠ r'.2 := by
  intro hr'
  apply h
  rw [← hr, ← hr']
  ext k hk
  simp only [BitVec.getElem_and, BitVec.getElem_xor, BitVec.ofNat_eq_ofNat, BitVec.getElem_zero]
  cases r.1[k] <;> cases r'.1[k] <;> simp

theorem opcodeMap_clashes : opcodeMap.Pairwise RowsClash := by
  unfold RowsClash
  decide

/-- Settles O3: decoding is encoding read backwards, so a decoded word fits its instruction's row; each row's format decodes;
and any two rows clash. -/
theorem recognizedWordsFitOneRow : Obligations.RecognizedWordsFitOneRow := by
  intro w
  refine ⟨fun i => fits_row_of_decodeWord, fun ⟨r, hr, hw⟩ => rowDecodes_of_mem r hr w hw, decodeWord_of_no_row, ?_⟩
  intro r r' hr hr' hw hw'
  have : Std.Symm RowsClash := ⟨fun _ _ => RowsClash.symm⟩
  by_contra hne
  exact (opcodeMap_clashes.forall hr hr' hne).not_both hw hw'

/-- Settles O4: one evaluation of the decoder per word. -/
theorem specWordsDecode : Obligations.SpecWordsDecode :=
  ⟨rfl, rfl, rfl, rfl, rfl, rfl, rfl, rfl, rfl, rfl, rfl, rfl, rfl⟩

end Sys2Proof.Machine
end

section
/-! SUPPORT. What every instruction does (10_state.md section 5, 60_exceptions.md section 1): it takes the fault `faultOf` names,
or it changes nothing but its row of the write matrix. The frame of an operation that earlier parts do not have is said first. -/

namespace Sys2Proof.Machine

/-! ### Frames: how they combine, and those of the operations -/

theorem Part.Same.refl (p : Part) (s : State) : p.Same s s := by
  cases p with
  | fault => exact ⟨rfl, rfl⟩
  | mem | v | stack | keys => exact fun _ => rfl
  | fb => exact fun _ _ => rfl
  | pc | i | sp | dt | st | draws | inbox | outbox => rfl

theorem Part.Same.trans {p : Part} {s t u : State} (h₁ : p.Same s t) (h₂ : p.Same t u) : p.Same s u := by
  cases p with
  | fault => exact ⟨h₂.1.trans h₁.1, h₂.2.trans h₁.2⟩
  | mem | v | stack | keys => exact fun a => (h₂ a).trans (h₁ a)
  | fb => exact fun y x => (h₂ y x).trans (h₁ y x)
  | pc | i | sp | dt | st | draws | inbox | outbox => exact Eq.trans h₂ h₁

theorem SameBut.trans {ps : List Part} {s t u : State} (h₁ : SameBut ps s t) (h₂ : SameBut ps t u) : SameBut ps s u :=
  fun p hp => (h₁ p hp).trans (h₂ p hp)

theorem SameBut.mono {ps qs : List Part} {s t : State} (h : SameBut ps s t) (hsub : ps ⊆ qs) : SameBut qs s t :=
  fun p hp => h p fun hp' => hp (hsub hp')

/-- Replacing the registers keeps every other element. -/
theorem sameBut_withRegs (s : State) (v : Vector Byte 16) : SameBut [.v] s { s with v := v } := by
  intro p hp
  have hrefl := Part.Same.refl p s
  cases p with
  | v => exact absurd List.mem_cons_self hp
  | _ => exact hrefl

/-- Replacing the memory keeps every other element. -/
theorem sameBut_setMem (s : State) (m : Memory) : SameBut [.mem] s (s.setMem m) := by
  intro p hp
  have hrefl := Part.Same.refl p s
  cases p with
  | mem => exact absurd List.mem_cons_self hp
  | _ => exact hrefl

/-- Moving the stack pointer keeps every other element, the slots among them. -/
theorem sameBut_withSp (s : State) (j : Fin 17) : SameBut [.sp] s { s with sp := j } := by
  intro p hp
  have hrefl := Part.Same.refl p s
  cases p with
  | sp => exact absurd List.mem_cons_self hp
  | _ => exact hrefl

/-- Replacing the stack slots keeps every other element, the stack pointer among them. -/
theorem sameBut_withStack (s : State) (v : Vector Word 16) : SameBut [.stack] s { s with stack := v } := by
  intro p hp
  have hrefl := Part.Same.refl p s
  cases p with
  | stack => exact absurd List.mem_cons_self hp
  | _ => exact hrefl

/-- Using up a free value changes nothing else. -/
theorem sameBut_withDraws (s : State) (n : Nat) : SameBut [.draws] s { s with draws := n } := by
  intro p hp
  have hrefl := Part.Same.refl p s
  cases p with
  | draws => exact absurd List.mem_cons_self hp
  | _ => exact hrefl

/-- Result and flag are two register writes. -/
theorem sameBut_setRegFlag (s : State) (x : Reg) (r : Byte × Bool) : SameBut [.v] s (s.setRegFlag x r) :=
  (sameBut_setReg s x _).trans (sameBut_setReg _ flagReg _)

theorem regsSameBut_setRegFlag (s : State) (x : Reg) (r : Byte × Bool) : RegsSameBut [x, 15] s (s.setRegFlag x r) := by
  intro q hq
  obtain ⟨hx, hf⟩ : q ≠ x ∧ q ≠ 15 := by simpa using hq
  rw [reg_setRegFlag, if_neg (Ne.symm hf), if_neg (Ne.symm hx)]

/-- A drawn sprite changes cells and `VF`. -/
theorem sameBut_setFb_setReg (s : State) (f : Framebuffer) (x : Reg) (b : Byte) :
    SameBut [.v, .fb] s ((s.setFb f).setReg x b) :=
  ((sameBut_setFb s f).mono (by simp)).trans ((sameBut_setReg _ x b).mono (by simp))

theorem sameBut_drawRnd_setReg (s : State) (x : Reg) (b : Byte) : SameBut [.v, .draws] s (s.drawRnd.2.setReg x b) :=
  ((sameBut_withDraws s _).mono (by simp)).trans ((sameBut_setReg _ x b).mono (by simp))

/-- A return moves `pc` and the stack pointer. -/
theorem sameBut_ret (s : State) (a : Word) (j : Fin 17) : SameBut [.pc, .sp] s { s with pc := a, sp := j } :=
  ((sameBut_withSp s j).mono (by simp)).trans ((sameBut_setPc _ a).mono (by simp))

/-- A call moves `pc` and the stack pointer and writes the slots. -/
theorem sameBut_call (s : State) (a : Word) (v : Vector Word 16) (j : Fin 17) :
    SameBut [.pc, .stack, .sp] s { s with pc := a, stack := v, sp := j } :=
  ((sameBut_withStack s v).mono (by simp)).trans ((sameBut_ret _ a j).mono (by simp))

/-! ### What the instructions that cannot fault answer -/

section
variable (s : State)

theorem exec_seReg (x y : Reg) : exec (.seReg x y) s = .next (s.skipIf (s.reg x == s.reg y)) := rfl

theorem exec_sneReg (x y : Reg) : exec (.sneReg x y) s = .next (s.skipIf (s.reg x != s.reg y)) := rfl

theorem exec_orReg (x y : Reg) : exec (.orReg x y) s = .next (s.setReg x (s.reg x ||| s.reg y)) := rfl

theorem exec_andReg (x y : Reg) : exec (.andReg x y) s = .next (s.setReg x (s.reg x &&& s.reg y)) := rfl

theorem exec_xorReg (x y : Reg) : exec (.xorReg x y) s = .next (s.setReg x (s.reg x ^^^ s.reg y)) := rfl

theorem exec_addReg (x y : Reg) : exec (.addReg x y) s = .next (s.setRegFlag x (addCarry (s.reg x) (s.reg y))) := rfl

theorem exec_sub (x y : Reg) : exec (.sub x y) s = .next (s.setRegFlag x (subNotBorrow (s.reg x) (s.reg y))) := rfl

theorem exec_shr (x y : Reg) : exec (.shr x y) s = .next (s.setRegFlag x (shiftRight (s.shiftSource x y))) := rfl

theorem exec_subn (x y : Reg) : exec (.subn x y) s = .next (s.setRegFlag x (subNotBorrow (s.reg y) (s.reg x))) := rfl

theorem exec_shl (x y : Reg) : exec (.shl x y) s = .next (s.setRegFlag x (shiftLeft (s.shiftSource x y))) := rfl

theorem exec_jpV0 (nnn : BitVec 12) : exec (.jpV0 nnn) s = .next (s.setPc (zext8 (s.reg 0) + zext12 nnn)) := rfl

theorem exec_rnd (x : Reg) (nn : Byte) : exec (.rnd x nn) s = .next (s.drawRnd.2.setReg x (s.drawRnd.1 &&& nn)) := rfl

theorem exec_ldF (x : Reg) : exec (.ldF x) s = .next (s.setI (glyphAddress (s.reg x))) := rfl

end

/-! ### The fault of an instruction -/

/-- An instruction that takes the fault `k` under the condition of its row. -/
theorem exec_faults_of_ite {i : Instr} {s : State} {code : BitVec 3} {P : Prop} [Decidable P] (k : FaultKind)
    (h : (if P then some k.code else none) = some code) (hx : P → exec i s = .next (enterFault k s)) :
    ∃ k : FaultKind, k.code = code ∧ exec i s = .next (enterFault k s) := by
  obtain ⟨hP, hc⟩ := Option.ite_none_right_eq_some.1 h
  exact ⟨k, Option.some.inj hc, hx hP⟩

/-- Where `faultOf` names a code, the fault with this code is taken. -/
theorem exec_faults {i : Instr} {s : State} {code : BitVec 3} (h : faultOf i s = some code) :
    ∃ k : FaultKind, k.code = code ∧ exec i s = .next (enterFault k s) := by
  cases i with
  | ret => exact exec_faults_of_ite .stackUnderflow h (exec_ret_empty s)
  | call nnn => exact exec_faults_of_ite .stackOverflow h (exec_call_full nnn s)
  | drw x y n => exact exec_faults_of_ite .memoryOutOfBounds h (exec_drw_faults x y n s)
  | ldB x => exact exec_faults_of_ite .memoryOutOfBounds h (exec_ldB_faults x s)
  | stRegs x => exact exec_faults_of_ite .memoryOutOfBounds h (exec_stRegs_faults x s)
  | ldRegs x => exact exec_faults_of_ite .memoryOutOfBounds h (exec_ldRegs_faults x s)
  | skp x => exact exec_faults_of_ite .keyIndexOutOfRange h (exec_skp_faults x s)
  | sknp x => exact exec_faults_of_ite .keyIndexOutOfRange h (exec_sknp_faults x s)
  | cls | jp | seByte | sneByte | seReg | sneReg | ldByte | addByte | ldReg | orReg | andReg | xorReg | addReg | sub | shr
  | subn | shl | ldI | jpV0 | rnd | ldVxDt | ldVxK | ldDtVx | ldStVx | addI | ldF => cases h

theorem enterFault_takesFault (k : FaultKind) (s : State) : TakesFault k.code s (enterFault k s) :=
  ⟨rfl, rfl, rfl, rfl⟩

/-- A condition under which `faultOf` would name a code does not hold where it names none. -/
theorem not_of_ite_some_eq_none {P : Prop} [Decidable P] {code : BitVec 3} (h : (if P then some code else none) = none) :
    ¬ P := by
  simpa using h

/-! ### The frame of an instruction -/

/-- `t` differs from `s` only in what the row of the write matrix lists. -/
def Framed (i : Instr) (s t : State) : Prop := SameBut (writes i) s t ∧ ∀ r, ¬ writesReg i r → t.reg r = s.reg r

/-- Where no register stands in the row, the frame of the elements is the whole frame. -/
theorem Framed.of_sameBut {i : Instr} {s t : State} (h : SameBut (writes i) s t) (hv : Part.v ∉ writes i) : Framed i s t :=
  ⟨h, fun r _ => h .v hv r⟩

/-- The frame of an instruction that writes one register. -/
theorem Framed.setReg {i : Instr} {x : Reg} (hw : writes i = [.v]) (hr : writesReg i = (· = x)) (s : State) (b : Byte) :
    Framed i s (s.setReg x b) :=
  ⟨hw ▸ sameBut_setReg s x b, fun r h => reg_setReg_ne s x r b fun h' => h (hr ▸ h'.symm)⟩

/-- The frame of an instruction that writes a register and the flag. -/
theorem Framed.setRegFlag {i : Instr} {x : Reg} (hw : writes i = [.v]) (hr : writesReg i = fun r => r = x ∨ r = flagReg)
    (s : State) (r : Byte × Bool) : Framed i s (s.setRegFlag x r) :=
  ⟨hw ▸ sameBut_setRegFlag s x r, fun q h => regsSameBut_setRegFlag s x r q (by simpa [hr] using h)⟩

/-- Where `faultOf` names no code, the instruction answers a next state within its row of the write matrix. -/
theorem exec_frame {i : Instr} {s : State} (h : faultOf i s = none) : ∃ t, exec i s = .next t ∧ Framed i s t := by
  cases i with
  | cls => exact ⟨_, exec_cls s, .of_sameBut (sameBut_setFb s _) (by simp [writes])⟩
  | ret =>
    obtain ⟨j, hj⟩ := sp_pos s (not_of_ite_some_eq_none h)
    exact ⟨_, exec_ret_pops s j hj, .of_sameBut (sameBut_ret s _ _) (by simp [writes])⟩
  | jp nnn => exact ⟨_, exec_jp nnn s, .of_sameBut (sameBut_setPc s _) (by simp [writes])⟩
  | call nnn =>
    have hj := sp_lt s (not_of_ite_some_eq_none h)
    exact ⟨_, exec_call_pushes nnn s hj, .of_sameBut (sameBut_call s _ _ _) (by simp [writes])⟩
  | seByte x nn => exact ⟨_, exec_seByte x nn s, .of_sameBut (sameBut_skipIf s _) (by simp [writes])⟩
  | sneByte x nn => exact ⟨_, exec_sneByte x nn s, .of_sameBut (sameBut_skipIf s _) (by simp [writes])⟩
  | seReg x y => exact ⟨_, exec_seReg s x y, .of_sameBut (sameBut_skipIf s _) (by simp [writes])⟩
  | sneReg x y => exact ⟨_, exec_sneReg s x y, .of_sameBut (sameBut_skipIf s _) (by simp [writes])⟩
  | ldByte x nn => exact ⟨_, exec_ldByte x nn s, .setReg rfl rfl s _⟩
  | addByte x nn => exact ⟨_, exec_addByte x nn s, .setReg rfl rfl s _⟩
  | ldReg x y => exact ⟨_, exec_ldReg x y s, .setReg rfl rfl s _⟩
  | orReg x y => exact ⟨_, exec_orReg s x y, .setReg rfl rfl s _⟩
  | andReg x y => exact ⟨_, exec_andReg s x y, .setReg rfl rfl s _⟩
  | xorReg x y => exact ⟨_, exec_xorReg s x y, .setReg rfl rfl s _⟩
  | addReg x y => exact ⟨_, exec_addReg s x y, .setRegFlag rfl rfl s _⟩
  | sub x y => exact ⟨_, exec_sub s x y, .setRegFlag rfl rfl s _⟩
  | shr x y => exact ⟨_, exec_shr s x y, .setRegFlag rfl rfl s _⟩
  | subn x y => exact ⟨_, exec_subn s x y, .setRegFlag rfl rfl s _⟩
  | shl x y => exact ⟨_, exec_shl s x y, .setRegFlag rfl rfl s _⟩
  | ldI nnn => exact ⟨_, exec_ldI nnn s, .of_sameBut (sameBut_setI s _) (by simp [writes])⟩
  | jpV0 nnn => exact ⟨_, exec_jpV0 s nnn, .of_sameBut (sameBut_setPc s _) (by simp [writes])⟩
  | rnd x nn =>
    exact ⟨_, exec_rnd s x nn, sameBut_drawRnd_setReg s x _, fun r hr => reg_setReg_ne _ x r _ (Ne.symm hr)⟩
  | drw x y n =>
    exact ⟨_, exec_drw_draws x y n s (not_of_ite_some_eq_none h), sameBut_setFb_setReg s _ _ _,
      fun r hr => reg_setReg_ne _ _ r _ (Ne.symm hr)⟩
  | skp x =>
    obtain ⟨k, hk⟩ := key_of_le (s.reg x) (not_of_ite_some_eq_none h)
    exact ⟨_, exec_skp_skips x s k hk, .of_sameBut (sameBut_skipIf s _) (by simp [writes])⟩
  | sknp x =>
    obtain ⟨k, hk⟩ := key_of_le (s.reg x) (not_of_ite_some_eq_none h)
    exact ⟨_, exec_sknp_skips x s k hk, .of_sameBut (sameBut_skipIf s _) (by simp [writes])⟩
  | ldVxDt x => exact ⟨_, exec_ldVxDt x s, .setReg rfl rfl s _⟩
  | ldVxK x =>
    cases hk : s.firstKey with
    | some k =>
      exact ⟨_, exec_ldVxK_pressed x s k hk, (sameBut_setReg s x _).mono (by simp [writes]),
        fun r hr => reg_setReg_ne s x r _ (Ne.symm hr)⟩
    | none => exact ⟨_, exec_ldVxK_waits x s hk, (sameBut_setPc s _).mono (by simp [writes]), fun _ _ => rfl⟩
  | ldDtVx x => exact ⟨_, exec_ldDtVx x s, .of_sameBut (sameBut_setDt s _) (by simp [writes])⟩
  | ldStVx x => exact ⟨_, exec_ldStVx x s, .of_sameBut (sameBut_setSt s _) (by simp [writes])⟩
  | addI x => exact ⟨_, exec_addI x s, .of_sameBut (sameBut_setI s _) (by simp [writes])⟩
  | ldF x => exact ⟨_, exec_ldF s x, .of_sameBut (sameBut_setI s _) (by simp [writes])⟩
  | ldB x =>
    exact ⟨_, exec_ldB_stores x s (not_of_ite_some_eq_none h), .of_sameBut (sameBut_setMem s _) (by simp [writes])⟩
  | stRegs x =>
    exact ⟨_, exec_stRegs_stores x s (not_of_ite_some_eq_none h), .of_sameBut (sameBut_setMem s _) (by simp [writes])⟩
  | ldRegs x =>
    refine ⟨_, exec_ldRegs_loads x s (not_of_ite_some_eq_none h), sameBut_withRegs s _, fun r hr => ?_⟩
    have hr : ¬ r.val ≤ x.val := hr
    exact (getElem_loadRegs _ _ _ _ r (by omega)).trans (if_neg (by omega))

/-- The frame, of the state an instruction answers. -/
theorem framed_of_exec {i : Instr} {s t : State} (h : faultOf i s = none) (hx : exec i s = .next t) : Framed i s t := by
  obtain ⟨t', hx', hfr⟩ := exec_frame h
  cases hx.symm.trans hx'
  exact hfr

/-- No instruction has the fault latch in its row. -/
theorem fault_notMem_writes (i : Instr) : Part.fault ∉ writes i := by
  cases i <;> simp [writes]

/-- Settles O48: the frame of every instruction, by its cases. -/
theorem execWritesOnlyItsRow : Obligations.ExecWritesOnlyItsRow :=
  fun _ _ _ => framed_of_exec

/-- Settles O7: where a code is named its fault is taken, and elsewhere the frame keeps the latch. -/
theorem execFaultsExactlyWhereListed : Obligations.ExecFaultsExactlyWhereListed := by
  intro i s
  cases h : faultOf i s with
  | some code =>
    obtain ⟨k, rfl, hx⟩ := exec_faults h
    exact ⟨_, hx, enterFault_takesFault k s⟩
  | none =>
    obtain ⟨t, hx, hsame, -⟩ := exec_frame h
    exact ⟨t, hx, hsame .fault (fault_notMem_writes i)⟩

end Sys2Proof.Machine
end

section
/-! SUPPORT. The step of the machine by its cases (10_state.md R36 to R38), and the two invariants: what a cycle can do is said
once, and each event keeps each invariant. -/

namespace Sys2Proof.Machine

/-! ### A step is its event -/

theorem step_of_nextEvent {s : State} {e : Event} (h : s.nextEvent = e) : step s = present e s.takeEvent := by
  rw [step, h]

theorem step_cycle {s : State} (h : s.nextEvent = .cycle) : step s = cycle s.takeEvent := step_of_nextEvent h

/-- A cycle inside memory whose word decodes is the instruction, run past its word. -/
theorem cycle_decoded {s : State} {i : Instr} (hf : s.faulted = false) (hp : s.pc.toNat ≤ 4094)
    (hd : decodeWord s.wordAtPc = .ok i) : cycle s = exec i (s.setPc (s.pc + 2)) := by
  rw [State.wordAtPc] at hd
  rw [cycle_running s hf hp, hd]

/-- A cycle inside memory whose word does not decode takes the fault of the decode stage. -/
theorem cycle_rejected {s : State} {e : Reject} (hf : s.faulted = false) (hp : s.pc.toNat ≤ 4094)
    (hd : decodeWord s.wordAtPc = .error e) : cycle s = .next (enterFault .unrecognizedInstruction (s.setPc (s.pc + 2))) := by
  rw [State.wordAtPc] at hd
  rw [cycle_running s hf hp, hd]

theorem step_decoded {s : State} {i : Instr} (h : CanFetch s) (hd : decodeWord s.wordAtPc = .ok i) :
    step s = exec i (s.takeEvent.setPc (s.pc + 2)) := by
  obtain ⟨he, hf, hp⟩ := h
  rw [step_cycle he]
  exact cycle_decoded (s := s.takeEvent) hf hp hd

/-- Settles O5: fetch and decode succeed, and the state after the fetch is the one the statement writes out. -/
theorem stepRunsDecodedInstruction : Obligations.StepRunsDecodedInstruction :=
  fun _ _ => step_decoded

/-- Settles O6: the fetch leaves memory, or the word it reads fits no row and so is rejected. -/
theorem fetchAndDecodeFaults : Obligations.FetchAndDecodeFaults := by
  intro s he hf
  rw [step_cycle he]
  refine ⟨fun hp => ⟨_, cycle_fetchFault s.takeEvent hf hp, enterFault_takesFault _ _⟩, fun hp hrow => ?_⟩
  exact ⟨_, cycle_rejected (s := s.takeEvent) hf hp (decodeWord_of_no_row hrow), rfl, rfl, rfl, rfl⟩

/-- Everything a cycle can do: nothing while faulted, a fault, or an instruction that does not fault. -/
theorem cycle_cases {s t : State} (h : cycle s = .next t) :
    (s.faulted = true ∧ t = s) ∨ (∃ k u, t = enterFault k u) ∨
      (s.faulted = false ∧ s.pc.toNat ≤ 4094 ∧
        ∃ i, faultOf i (s.setPc (s.pc + 2)) = none ∧ exec i (s.setPc (s.pc + 2)) = .next t) := by
  cases hf : s.faulted with
  | true =>
    cases (cycle_faulted s hf).symm.trans h
    exact .inl ⟨rfl, rfl⟩
  | false =>
    refine .inr ?_
    by_cases hp : s.pc.toNat ≤ 4094
    · cases hd : decodeWord s.wordAtPc with
      | error e =>
        cases (cycle_rejected hf hp hd).symm.trans h
        exact .inl ⟨_, _, rfl⟩
      | ok i =>
        rw [cycle_decoded hf hp hd] at h
        cases hfo : faultOf i (s.setPc (s.pc + 2)) with
        | some code =>
          obtain ⟨k, -, hx⟩ := exec_faults hfo
          cases hx.symm.trans h
          exact .inl ⟨_, _, rfl⟩
        | none => exact .inr ⟨rfl, hp, i, hfo, h⟩
    · cases (cycle_fetchFault s hf (Nat.not_le.1 hp)).symm.trans h
      exact .inl ⟨_, _, rfl⟩

/-! ### The host's other events -/

section
variable (s : State)

theorem onLoad_oversize (bytes : List Byte) (hf : s.faulted = false) (h : 3584 < bytes.length) :
    s.onLoad bytes = enterFault .memoryOutOfBounds s := by
  have ho : outOfMemory Config.progStart bytes.length = true :=
    (outOfMemory_iff _ _).2 (by simp only [Config.progStart]; omega)
  simp [State.onLoad, hf, ho]

theorem onLoad_fits (bytes : List Byte) (hf : s.faulted = false) (h : bytes.length ≤ 3584) :
    s.onLoad bytes = s.setMem (s.mem.writeBytes 0x200 bytes) := by
  have ho : outOfMemory Config.progStart bytes.length = false :=
    (outOfMemory_false_iff _ _).2 (by simp only [Config.progStart]; omega)
  simp [State.onLoad, hf, ho]

theorem onLoad_faulted (bytes : List Byte) (hf : s.faulted = true) : s.onLoad bytes = s := by
  simp [State.onLoad, hf]

theorem onSetKey_running (k : Key) (p : Bool) (hf : s.faulted = false) :
    s.onSetKey k p = { s with keys := s.keys.set k p } := by
  simp [State.onSetKey, hf]

theorem onSetKey_faulted (k : Key) (p : Bool) (hf : s.faulted = true) : s.onSetKey k p = s := by
  simp [State.onSetKey, hf]

/-- Both timers counted down. -/
def State.countTimers : State := (s.setDt (countDown s.dt)).setSt (countDown s.st)

theorem onTick_sounding (hf : s.faulted = false) (h : s.st = 1) : s.onTick = s.countTimers.emit .soundStop := by
  simp [State.onTick, State.countTimers, hf, h]

theorem onTick_silent (hf : s.faulted = false) (h : s.st ≠ 1) : s.onTick = s.countTimers := by
  simp only [State.onTick, State.countTimers, hf, h, Bool.false_eq_true, if_false]

theorem onTick_faulted (hf : s.faulted = true) : s.onTick = s := by
  simp [State.onTick, hf]

theorem onFbRead_running (hf : s.faulted = false) : s.onFbRead = s.emit (.frame s.fb.readOut) := by
  simp [State.onFbRead, hf]

theorem onFbRead_faulted (hf : s.faulted = true) :
    s.onFbRead =
      { s.emit (.frame ((List.range 2048).map (Config.lostFrame s.draws))) with draws := s.draws + 1 } := by
  simp [State.onFbRead, hf]

end

/-- What a `LOAD` leaves: the state it found, the fault, or memory with the bytes. -/
theorem onLoad_cases (s : State) (bytes : List Byte) :
    s.onLoad bytes = s ∨ s.onLoad bytes = enterFault .memoryOutOfBounds s ∨
      bytes.length ≤ 3584 ∧ s.onLoad bytes = s.setMem (s.mem.writeBytes 0x200 bytes) := by
  cases hf : s.faulted with
  | true => exact .inl (onLoad_faulted s bytes hf)
  | false =>
    rcases Nat.lt_or_ge 3584 bytes.length with h | h
    · exact .inr (.inl (onLoad_oversize s bytes hf h))
    · exact .inr (.inr ⟨h, onLoad_fits s bytes hf h⟩)

/-- A key change, a tick and a read-out touch neither memory nor control nor the fault latch. -/
def SameCore (s t : State) : Prop := t.mem = s.mem ∧ t.pc = s.pc ∧ t.stack = s.stack ∧ t.faulted = s.faulted

theorem sameCore_onSetKey (s : State) (k : Key) (p : Bool) : SameCore s (s.onSetKey k p) := by
  cases hf : s.faulted with
  | true => rw [onSetKey_faulted s k p hf]; exact ⟨rfl, rfl, rfl, rfl⟩
  | false => rw [onSetKey_running s k p hf]; exact ⟨rfl, rfl, rfl, rfl⟩

theorem sameCore_onTick (s : State) : SameCore s s.onTick := by
  cases hf : s.faulted with
  | true => rw [onTick_faulted s hf]; exact ⟨rfl, rfl, rfl, rfl⟩
  | false =>
    by_cases h : s.st = 1
    · rw [onTick_sounding s hf h]; exact ⟨rfl, rfl, rfl, rfl⟩
    · rw [onTick_silent s hf h]; exact ⟨rfl, rfl, rfl, rfl⟩

theorem sameCore_onFbRead (s : State) : SameCore s s.onFbRead := by
  cases hf : s.faulted with
  | true => rw [onFbRead_faulted s hf]; exact ⟨rfl, rfl, rfl, rfl⟩
  | false => rw [onFbRead_running s hf]; exact ⟨rfl, rfl, rfl, rfl⟩

/-! ### Memory stays canonical -/

theorem SameCore.memCanonical {s t : State} (h : SameCore s t) (hs : MemCanonical s) : MemCanonical t := by
  obtain ⟨hm, -⟩ := h
  rwa [MemCanonical, hm]

theorem memCanonical_enterFault (k : FaultKind) (s : State) : MemCanonical (enterFault k s) :=
  Memory.wf_tabulate _

theorem memCanonical_reset : MemCanonical State.reset := Memory.wf_nil

/-- An instruction that does not fault leaves memory as it is, or with bytes written inside it at `I`. -/
theorem exec_mem_cases {i : Instr} {s t : State} (h : faultOf i s = none) (hx : exec i s = .next t) :
    t.mem = s.mem ∨ ∃ ws : List Byte, s.base + ws.length ≤ 4096 ∧ t.mem = s.mem.writeBytes s.base ws := by
  cases i with
  | ldB x =>
    have hi := not_of_ite_some_eq_none h
    cases (exec_ldB_stores x s hi).symm.trans hx
    refine .inr ⟨_, ?_, rfl⟩
    rw [length_bcdDigits, State.base]; omega
  | stRegs x =>
    have hi := not_of_ite_some_eq_none h
    cases (exec_stRegs_stores x s hi).symm.trans hx
    refine .inr ⟨_, ?_, rfl⟩
    rw [length_firstRegs, State.base]; omega
  | ret =>
    obtain ⟨j, hj⟩ := sp_pos s (not_of_ite_some_eq_none h)
    cases (exec_ret_pops s j hj).symm.trans hx
    exact .inl rfl
  | call nnn =>
    cases (exec_call_pushes nnn s (sp_lt s (not_of_ite_some_eq_none h))).symm.trans hx
    exact .inl rfl
  | drw x y n =>
    cases (exec_drw_draws x y n s (not_of_ite_some_eq_none h)).symm.trans hx
    exact .inl rfl
  | ldRegs x =>
    cases (exec_ldRegs_loads x s (not_of_ite_some_eq_none h)).symm.trans hx
    exact .inl rfl
  | skp x =>
    obtain ⟨k, hk⟩ := key_of_le (s.reg x) (not_of_ite_some_eq_none h)
    cases (exec_skp_skips x s k hk).symm.trans hx
    exact .inl (by rw [skipIf_eq, setPc_mem])
  | sknp x =>
    obtain ⟨k, hk⟩ := key_of_le (s.reg x) (not_of_ite_some_eq_none h)
    cases (exec_sknp_skips x s k hk).symm.trans hx
    exact .inl (by rw [skipIf_eq, setPc_mem])
  | seByte | sneByte | seReg | sneReg =>
    cases hx
    exact .inl (by rw [skipIf_eq, setPc_mem])
  | ldVxK x =>
    cases hk : s.firstKey with
    | some k => cases (exec_ldVxK_pressed x s k hk).symm.trans hx; exact .inl rfl
    | none => cases (exec_ldVxK_waits x s hk).symm.trans hx; exact .inl rfl
  | cls | jp | ldByte | addByte | ldReg | orReg | andReg | xorReg | addReg | sub | shr | subn | shl | ldI | jpV0 | rnd
  | ldVxDt | ldDtVx | ldStVx | addI | ldF => cases hx; exact .inl rfl

theorem cycle_memCanonical {s t : State} (hs : MemCanonical s) (h : cycle s = .next t) : MemCanonical t := by
  obtain ⟨-, rfl⟩ | ⟨k, u, rfl⟩ | ⟨-, -, i, hf, hx⟩ := cycle_cases h
  · exact hs
  · exact memCanonical_enterFault k u
  · obtain hm | ⟨ws, hws, hm⟩ := exec_mem_cases hf hx
    · rw [MemCanonical, hm]; exact hs
    · rw [MemCanonical, hm]; exact Memory.wf_writeBytes hs hws

theorem onLoad_memCanonical {s : State} (hs : MemCanonical s) (bytes : List Byte) : MemCanonical (s.onLoad bytes) := by
  obtain h | h | ⟨hlen, h⟩ := onLoad_cases s bytes <;> rw [h]
  · exact hs
  · exact memCanonical_enterFault _ s
  · exact Memory.wf_writeBytes hs (show 0x200 + bytes.length ≤ 4096 by omega)

theorem present_memCanonical {e : Event} {s t : State} (hs : MemCanonical s) (h : present e s = .next t) :
    MemCanonical t := by
  cases e with
  | reset => cases h; exact memCanonical_reset
  | load bytes => cases h; exact onLoad_memCanonical hs bytes
  | setKey k p => cases h; exact (sameCore_onSetKey s k p).memCanonical hs
  | cycle => exact cycle_memCanonical hs h
  | tick => cases h; exact (sameCore_onTick s).memCanonical hs
  | fbRead => cases h; exact (sameCore_onFbRead s).memCanonical hs

/-- Settles O52: every event keeps the canonical form; a write is inside memory wherever no fault is taken, and a fault's free
memory is canonical by construction. -/
theorem stepKeepsMemoryCanonical : Obligations.StepKeepsMemoryCanonical :=
  fun s _ hs => present_memCanonical (s := s.takeEvent) hs

/-! ### Control stays bounded -/

theorem SameCore.controlBounded {s t : State} (h : SameCore s t) (hs : ControlBounded s) : ControlBounded t := by
  obtain ⟨-, hpc, hst, hf⟩ := h
  rwa [ControlBounded, hpc, hst, hf]

theorem controlBounded_enterFault (k : FaultKind) (s : State) : ControlBounded (enterFault k s) := fun h => nomatch h

theorem controlBounded_reset : ControlBounded State.reset := fun _ => by decide

/-- The bounds of the state an instruction runs from, after a fetch inside memory. -/
def FetchedBounds (s : State) : Prop := 2 ≤ s.pc.toNat ∧ s.pc.toNat ≤ 4096 ∧ ∀ j : Fin 16, (s.stack[j]).toNat ≤ 4096

theorem toNat_add_two {a : Word} (h : a.toNat ≤ 4096) : (a + 2).toNat = a.toNat + 2 := by
  rw [BitVec.toNat_add]
  show (a.toNat + 2) % 65536 = _
  omega

theorem toNat_sub_two {a : Word} (h : 2 ≤ a.toNat) : (a - 2).toNat = a.toNat - 2 := by
  have := a.isLt
  rw [BitVec.toNat_sub]
  show (65534 + a.toNat) % 65536 = _
  omega

theorem toNat_zext8_add_zext12 (b : Byte) (nnn : BitVec 12) : (zext8 b + zext12 nnn).toNat = b.toNat + nnn.toNat := by
  have := b.isLt
  have := nnn.isLt
  rw [BitVec.toNat_add, toNat_zext8, toNat_zext12]; omega

theorem fetchedBounds_setPc {s : State} (hp : s.pc.toNat ≤ 4094) (hst : ∀ j : Fin 16, (s.stack[j]).toNat ≤ 4096) :
    FetchedBounds (s.setPc (s.pc + 2)) := by
  have h : (s.pc + 2).toNat = s.pc.toNat + 2 := toNat_add_two (by omega)
  refine ⟨?_, ?_, hst⟩ <;> rw [setPc_pc] <;> omega

/-- A skip from a fetched state reaches at most 4098. -/
theorem skipIf_pc_le {s : State} (h : FetchedBounds s) (c : Bool) : (s.skipIf c).pc.toNat ≤ 0x10FE := by
  obtain ⟨-, hp, -⟩ := h
  have h2 := toNat_add_two hp
  cases c
  · exact (show s.pc.toNat ≤ 0x10FE by omega)
  · exact (show (s.pc + 2).toNat ≤ 0x10FE by omega)

/-- The frame keeps `pc` where the row does not list it. -/
theorem pc_le_of_framed {i : Instr} {s t : State} (hfr : Framed i s t) (hw : Part.pc ∉ writes i) (h : FetchedBounds s) :
    t.pc.toNat ≤ 0x10FE := by
  obtain ⟨-, hp, -⟩ := h
  rw [show t.pc = s.pc from hfr.1 .pc hw]
  omega

/-- The largest `pc` is the one `BNNN` reaches (10_state.md R21). -/
theorem exec_pc_le {i : Instr} {s t : State} (h : faultOf i s = none) (hx : exec i s = .next t) (hb : FetchedBounds s) :
    t.pc.toNat ≤ 0x10FE := by
  have hfr := framed_of_exec h hx
  cases i with
  | ret =>
    obtain ⟨j, hj⟩ := sp_pos s (not_of_ite_some_eq_none h)
    cases (exec_ret_pops s j hj).symm.trans hx
    obtain ⟨-, -, hst⟩ := hb
    exact Nat.le_trans (hst j) (by decide)
  | jp nnn =>
    cases hx
    have := nnn.isLt
    rw [setPc_pc, toNat_zext12]; omega
  | call nnn =>
    cases (exec_call_pushes nnn s (sp_lt s (not_of_ite_some_eq_none h))).symm.trans hx
    have := nnn.isLt
    rw [toNat_zext12]; omega
  | jpV0 nnn =>
    cases hx
    have := nnn.isLt
    have := (s.reg 0).isLt
    rw [setPc_pc, toNat_zext8_add_zext12]; omega
  | seByte | sneByte | seReg | sneReg => cases hx; exact skipIf_pc_le hb _
  | skp x =>
    obtain ⟨k, hk⟩ := key_of_le (s.reg x) (not_of_ite_some_eq_none h)
    cases (exec_skp_skips x s k hk).symm.trans hx
    exact skipIf_pc_le hb _
  | sknp x =>
    obtain ⟨k, hk⟩ := key_of_le (s.reg x) (not_of_ite_some_eq_none h)
    cases (exec_sknp_skips x s k hk).symm.trans hx
    exact skipIf_pc_le hb _
  | ldVxK x =>
    obtain ⟨h2, hp, -⟩ := hb
    cases hk : s.firstKey with
    | some k =>
      cases (exec_ldVxK_pressed x s k hk).symm.trans hx
      rw [setReg_pc]; omega
    | none =>
      cases (exec_ldVxK_waits x s hk).symm.trans hx
      rw [setPc_pc, toNat_sub_two h2]; omega
  | cls | ldByte | addByte | ldReg | orReg | andReg | xorReg | addReg | sub | shr | subn | shl | ldI | rnd | drw | ldVxDt
  | ldDtVx | ldStVx | addI | ldF | ldB | stRegs | ldRegs => exact pc_le_of_framed hfr (by simp [writes]) hb

theorem eq_call_of_stack_mem_writes {i : Instr} (h : Part.stack ∈ writes i) : ∃ nnn, i = .call nnn := by
  cases i with
  | call nnn => exact ⟨nnn, rfl⟩
  | _ => simp [writes] at h

/-- The only slot written is the one a call pushes, with the `pc` past its word. -/
theorem exec_stack_le {i : Instr} {s t : State} (h : faultOf i s = none) (hx : exec i s = .next t) (hb : FetchedBounds s)
    (j : Fin 16) : (t.stack[j]).toNat ≤ 4096 := by
  obtain ⟨-, hp, hst⟩ := hb
  by_cases hw : Part.stack ∈ writes i
  · obtain ⟨nnn, rfl⟩ := eq_call_of_stack_mem_writes hw
    cases (exec_call_pushes nnn s (sp_lt s (not_of_ite_some_eq_none h))).symm.trans hx
    simp only [Fin.getElem_fin, Vector.getElem_set]
    split
    · exact hp
    · exact hst j
  · obtain ⟨hsame, -⟩ := framed_of_exec h hx
    rw [show t.stack[j] = s.stack[j] from hsame .stack hw j]
    exact hst j

theorem cycle_controlBounded {s t : State} (hs : ControlBounded s) (h : cycle s = .next t) : ControlBounded t := by
  obtain ⟨-, rfl⟩ | ⟨k, u, rfl⟩ | ⟨hf, hp, i, hfo, hx⟩ := cycle_cases h
  · exact hs
  · exact controlBounded_enterFault k u
  · obtain ⟨-, hst⟩ := hs hf
    have hb := fetchedBounds_setPc hp hst
    exact fun _ => ⟨exec_pc_le hfo hx hb, exec_stack_le hfo hx hb⟩

theorem onLoad_controlBounded {s : State} (hs : ControlBounded s) (bytes : List Byte) : ControlBounded (s.onLoad bytes) := by
  obtain h | h | ⟨-, h⟩ := onLoad_cases s bytes <;> rw [h]
  · exact hs
  · exact controlBounded_enterFault _ s
  · exact hs

theorem present_controlBounded {e : Event} {s t : State} (hs : ControlBounded s) (h : present e s = .next t) :
    ControlBounded t := by
  cases e with
  | reset => cases h; exact controlBounded_reset
  | load bytes => cases h; exact onLoad_controlBounded hs bytes
  | setKey k p => cases h; exact (sameCore_onSetKey s k p).controlBounded hs
  | cycle => exact cycle_controlBounded hs h
  | tick => cases h; exact (sameCore_onTick s).controlBounded hs
  | fbRead => cases h; exact (sameCore_onFbRead s).controlBounded hs

/-- Settles O53: the two bounds are kept together; a return needs the slots' bound, a call the fetch's bound on `pc`, and a
fetch inside memory starts every instruction at 4096 or below. -/
theorem stepKeepsControlBounded : Obligations.StepKeepsControlBounded :=
  fun s _ hs => present_controlBounded (s := s.takeEvent) hs

/-- Settles O54: no cell is listed at reset, and the reset values of `pc` and the slots are within their bounds. -/
theorem resetMeetsInvariants : Obligations.ResetMeetsInvariants := ⟨memCanonical_reset, controlBounded_reset⟩

end Sys2Proof.Machine
end

section
/-! SUPPORT. Control transfer, skips, the flag-setting ALU, the font address, the random byte and the keypad, one statement per
instruction; then call and return together, and that no instruction reads the sound timer. -/

namespace Sys2Proof.Machine

/-! ### Control transfer (40_control_transfer.md) -/

/-- Settles O10: an empty stack faults; else the top slot is popped, and no slot is written. -/
theorem retPopsReturnAddress : Obligations.RetPopsReturnAddress :=
  ⟨decodeWord_ret, fun s => ⟨fun h => ⟨_, exec_ret_empty s h, enterFault_takesFault _ s⟩,
    fun j h => ⟨_, exec_ret_pops s j h, rfl, rfl, sameBut_ret s _ _⟩⟩⟩

/-- Settles O12: a full stack faults; else one slot, the one `sp` numbers, is written. -/
theorem callPushesAndJumps : Obligations.CallPushesAndJumps := by
  intro nnn s
  refine ⟨decodeWord_call nnn, fun h => ⟨_, exec_call_full nnn s h, enterFault_takesFault _ s⟩, fun j h => ?_⟩
  have hlt : s.sp.val < 16 := h ▸ j.isLt
  refine ⟨_, exec_call_pushes nnn s hlt, toNat_zext12 nnn, congrArg (· + 1) h, ?_, fun k hk => ?_,
    (sameBut_call s _ _ _).mono (by simp)⟩
  · simp [h]
  · have hne : s.sp.val ≠ k.val := fun h' => hk (Fin.ext (h'.symm.trans h))
    exact Vector.getElem_set_ne hlt k.isLt hne

/-- Settles O13: the sum of a byte and 12 bits does not reach 65536, so the 16-bit sum is the exact one. -/
theorem jpV0AddsRegisterZero : Obligations.JpV0AddsRegisterZero := by
  intro nnn s
  have hpc : (s.setPc (zext8 (s.reg 0) + zext12 nnn)).pc.toNat = (s.reg 0).toNat + nnn.toNat :=
    toNat_zext8_add_zext12 _ nnn
  refine ⟨decodeWord_jpV0 nnn, _, exec_jpV0 s nnn, hpc, sameBut_setPc s _, ?_⟩
  rw [fetch_eq_none_iff, hpc]

/-- Settles O50: the return pops the slot the call wrote, whatever `pc` it was fetched from. -/
theorem returnUndoesCall : Obligations.ReturnUndoesCall := by
  intro nnn s a hlt
  refine ⟨_, _, exec_call_pushes nnn s hlt, exec_ret_pops _ ⟨s.sp.val, hlt⟩ rfl, ?_, rfl, ?_, fun j hj => ?_⟩
  · exact Vector.getElem_set_self hlt
  · intro p hp
    have hrefl := Part.Same.refl p s
    cases p with
    | stack => exact absurd List.mem_cons_self hp
    | pc => exact Vector.getElem_set_self hlt
    | _ => exact hrefl
  · exact Vector.getElem_set_ne hlt j.isLt (Ne.symm hj)

/-! ### Conditional skips (41_conditional_skips.md) -/

/-- A word of family 5 or 9 with another last digit than 0 (30_encoding.md R96). -/
theorem decodeWord_family5_reject (x y : Reg) {n : BitVec 4} (h : n ≠ 0) :
    decodeWord (packXYN 0x5 x y n) = .error (.unrecognized (packXYN 0x5 x y n)) := by
  simpa [decodeWord] using h

theorem decodeWord_family9_reject (x y : Reg) {n : BitVec 4} (h : n ≠ 0) :
    decodeWord (packXYN 0x9 x y n) = .error (.unrecognized (packXYN 0x9 x y n)) := by
  simpa [decodeWord] using h

/-- Settles O15: the two instructions are `skipIf` under complementary conditions. -/
theorem seSneRegSkip : Obligations.SeSneRegSkip := by
  intro x y s
  refine ⟨decodeWord_seReg x y, decodeWord_sneReg x y,
    fun n hn => ⟨decodeWord_family5_reject x y hn, decodeWord_family9_reject x y hn⟩,
    ⟨_, exec_seReg s x y, sameBut_skipIf s _, ?_⟩, ⟨_, exec_sneReg s x y, sameBut_skipIf s _, ?_⟩⟩
  · simp
  · by_cases h : s.reg x = s.reg y <;> simp [h]

/-! ### Logic and arithmetic with a flag (42_load_and_alu.md) -/

/-- Settles O19: each instruction is one register write of a bitwise operation of the old values. -/
theorem logicalOpsWorkBitwise : Obligations.LogicalOpsWorkBitwise := by
  intro x y s
  refine ⟨decodeWord_orReg x y, decodeWord_andReg x y, decodeWord_xorReg x y,
    ⟨_, exec_orReg s x y, regsSameBut_setReg s x _, sameBut_setReg s x _, fun k => ?_⟩,
    ⟨_, exec_andReg s x y, regsSameBut_setReg s x _, sameBut_setReg s x _, fun k => ?_⟩,
    ⟨_, exec_xorReg s x y, regsSameBut_setReg s x _, sameBut_setReg s x _, fun k => ?_⟩⟩
  · rw [reg_setReg_self, BitVec.getLsbD_or]
  · rw [reg_setReg_self, BitVec.getLsbD_and]
  · rw [reg_setReg_self, BitVec.getLsbD_xor]

/-- The result stands in `V[X]` unless the flag, written last, has replaced it. -/
theorem reg_setRegFlag_result (s : State) {x : Reg} (hx : x ≠ 15) (r : Byte × Bool) : (s.setRegFlag x r).reg x = r.1 := by
  rw [reg_setRegFlag, if_neg (Ne.symm hx), if_pos rfl]

theorem reg_setRegFlag_flag (s : State) (x : Reg) (r : Byte × Bool) : (s.setRegFlag x r).reg 15 = flagByte r.2 := by
  rw [reg_setRegFlag, if_pos rfl]

theorem flagByte_decide (P : Prop) [Decidable P] : flagByte (decide P) = if P then 1 else 0 := by
  simp [flagByte]

theorem toNat_flagByte (c : Bool) : (flagByte c).toNat = c.toNat := by
  cases c <;> rfl

theorem toNat_subNotBorrow (a b : Byte) : (subNotBorrow a b).1.toNat = (a.toNat + 256 - b.toNat) % 256 := by
  have := b.isLt
  rw [subNotBorrow, BitVec.toNat_sub]
  congr 1
  omega

theorem toNat_shiftRight (a : Byte) : (shiftRight a).1.toNat = a.toNat / 2 := by
  simp [shiftRight, Nat.shiftRight_eq_div_pow]

theorem toNat_shiftLeft (a : Byte) : (shiftLeft a).1.toNat = 2 * a.toNat % 256 := by
  simp [shiftLeft, Nat.shiftLeft_eq, Nat.mul_comm]

theorem toNat_getLsbD_zero (a : Byte) : (a.getLsbD 0).toNat = a.toNat % 2 := by
  rw [BitVec.getLsbD, Nat.toNat_testBit, Nat.pow_zero, Nat.div_one]

theorem toNat_getLsbD_seven (a : Byte) : (a.getLsbD 7).toNat = a.toNat / 128 := by
  have := a.isLt
  rw [BitVec.getLsbD, Nat.toNat_testBit, Nat.mod_eq_of_lt (by omega)]

/-- Settles O20: the exact sum, narrowed into `V[X]`, and then its carry into `VF`. -/
theorem addRegSetsCarry : Obligations.AddRegSetsCarry := by
  intro x y s
  refine ⟨decodeWord_addReg x y, _, exec_addReg s x y, fun hx => ?_, ?_, regsSameBut_setRegFlag s x _,
    sameBut_setRegFlag s x _⟩
  · rw [reg_setRegFlag_result s hx, toNat_addCarry]
  · rw [reg_setRegFlag_flag, addCarry, flagByte_decide]

/-- Settles O21: the difference into `V[X]`, and then the not-borrow into `VF`. -/
theorem subSetsNotBorrow : Obligations.SubSetsNotBorrow := by
  intro x y s
  refine ⟨decodeWord_sub x y, _, exec_sub s x y, fun hx => ?_, ?_, regsSameBut_setRegFlag s x _,
    sameBut_setRegFlag s x _⟩
  · rw [reg_setRegFlag_result s hx, toNat_subNotBorrow]
  · rw [reg_setRegFlag_flag, subNotBorrow, flagByte_decide]

/-- Settles O23: as the subtraction, with the operands the other way round. -/
theorem subnSetsNotBorrow : Obligations.SubnSetsNotBorrow := by
  intro x y s
  refine ⟨decodeWord_subn x y, _, exec_subn s x y, fun hx => ?_, ?_, regsSameBut_setRegFlag s x _,
    sameBut_setRegFlag s x _⟩
  · rw [reg_setRegFlag_result s hx, toNat_subNotBorrow]
  · rw [reg_setRegFlag_flag, subNotBorrow, flagByte_decide]

/-- Settles O22: the source is named once, so neither value of the open parameter is looked at. -/
theorem shrDropsLowBitIntoFlag : Obligations.ShrDropsLowBitIntoFlag := by
  intro x y s a ha
  obtain rfl : a = s.shiftSource x y := ha
  refine ⟨decodeWord_shr x y, _, exec_shr s x y, fun hx => ?_, ?_, regsSameBut_setRegFlag s x _, sameBut_setRegFlag s x _⟩
  · rw [reg_setRegFlag_result s hx, toNat_shiftRight]
  · rw [reg_setRegFlag_flag, toNat_flagByte, shiftRight, toNat_getLsbD_zero]

/-- Settles O24: as the right shift, with bit 7 as the flag. -/
theorem shlDropsHighBitIntoFlag : Obligations.ShlDropsHighBitIntoFlag := by
  intro x y s a ha
  obtain rfl : a = s.shiftSource x y := ha
  refine ⟨decodeWord_shl x y, _, exec_shl s x y, fun hx => ?_, ?_, regsSameBut_setRegFlag s x _, sameBut_setRegFlag s x _⟩
  · rw [reg_setRegFlag_result s hx, toNat_shiftLeft]
  · rw [reg_setRegFlag_flag, toNat_flagByte, shiftLeft, toNat_getLsbD_seven]

/-! ### Font address and random byte (43_index_and_memory.md R162, 44_random.md R170) -/

/-- Settles O27: the instruction is one write of `I`, of the glyph's address. -/
theorem ldFPointsAtGlyph : Obligations.LdFPointsAtGlyph := by
  intro x s
  exact ⟨decodeWord_ldF x, _, exec_ldF s x, toNat_glyphAddress _, sameBut_setI s _⟩

/-- Settles O33: the draw enters only through the mask, so every clause holds for every byte drawn. -/
theorem rndMasksTheDraw : Obligations.RndMasksTheDraw := by
  intro x nn s
  have hx : (s.drawRnd.2.setReg x (s.drawRnd.1 &&& nn)).reg x = Config.rnd s.draws &&& nn := reg_setReg_self _ x _
  refine ⟨decodeWord_rnd x nn, _, exec_rnd s x nn, hx, ?_, fun k hk => ?_, rfl, fun r hr => ?_,
    sameBut_drawRnd_setReg s x _⟩
  · rw [hx, BitVec.toNat_and]
    exact Nat.and_le_right
  · rw [hx, BitVec.getLsbD_and, hk, Bool.and_false]
  · exact regsSameBut_setReg s.drawRnd.2 x _ r hr

/-! ### Keypad (46_keypad.md) -/

/-- Settles O37: a value above 15 faults; else the skip tests the key it numbers. -/
theorem skpSkipsOnPressedKey : Obligations.SkpSkipsOnPressedKey := by
  intro x s
  refine ⟨decodeWord_skp x, fun h => ⟨_, exec_skp_faults x s h, enterFault_takesFault _ s⟩, fun k hk => ?_⟩
  exact ⟨_, exec_skp_skips x s k hk, sameBut_skipIf s _, skipIf_pc s _⟩

/-- Settles O38: the same test, the other way round. -/
theorem sknpSkipsOnReleasedKey : Obligations.SknpSkipsOnReleasedKey := by
  intro x s
  refine ⟨decodeWord_sknp x, fun h => ⟨_, exec_sknp_faults x s h, enterFault_takesFault _ s⟩, fun k hk => ?_⟩
  refine ⟨_, exec_sknp_skips x s k hk, sameBut_skipIf s _, ?_⟩
  cases s.key k <;> rfl

/-- Settles O39: the key scan answers the least pressed key, or none. -/
theorem keyWaitTakesLeastKey : Obligations.KeyWaitTakesLeastKey := by
  intro x s
  refine ⟨decodeWord_ldVxK x, fun k hk hlt => ?_, fun h => ?_⟩
  · refine ⟨_, exec_ldVxK_pressed x s k (firstKey_eq_some s k hk hlt), ?_, regsSameBut_setReg s x _, sameBut_setReg s x _⟩
    have := k.isLt
    rw [reg_setReg_self, BitVec.toNat_ofNat]
    omega
  · exact ⟨_, exec_ldVxK_waits x s (firstKey_eq_none s h), rfl, sameBut_setPc s _⟩

/-! ### The sound timer is not read (10_state.md, `ST`) -/

/-- Two runs of the instruction, from `s` and from `s` with another `ST`, answer states that differ in `ST` alone. -/
def BlindToSt (i : Instr) (s : State) (b : Byte) : Prop :=
  ∃ t u, exec i s = .next t ∧ exec i (s.setSt b) = .next u ∧ u = t.setSt u.st

/-- A skip commutes with a write of `ST`. -/
theorem BlindToSt.of_skipIf {i : Instr} {s : State} {b : Byte} (c : Bool) (h : exec i s = .next (s.skipIf c))
    (h' : exec i (s.setSt b) = .next ((s.setSt b).skipIf c)) : BlindToSt i s b :=
  ⟨_, _, h, h', by rw [skipIf_eq, skipIf_eq]; rfl⟩

theorem exec_blindToSt {i : Instr} {s : State} (b : Byte) (h : faultOf i s = none) : BlindToSt i s b := by
  cases i with
  | ret =>
    obtain ⟨j, hj⟩ := sp_pos s (not_of_ite_some_eq_none h)
    exact ⟨_, _, exec_ret_pops s j hj, exec_ret_pops (s.setSt b) j hj, rfl⟩
  | call nnn =>
    have hj := sp_lt s (not_of_ite_some_eq_none h)
    exact ⟨_, _, exec_call_pushes nnn s hj, exec_call_pushes nnn (s.setSt b) hj, rfl⟩
  | drw x y n =>
    have hn := not_of_ite_some_eq_none h
    exact ⟨_, _, exec_drw_draws x y n s hn, exec_drw_draws x y n (s.setSt b) hn, rfl⟩
  | ldB x =>
    have hi := not_of_ite_some_eq_none h
    exact ⟨_, _, exec_ldB_stores x s hi, exec_ldB_stores x (s.setSt b) hi, rfl⟩
  | stRegs x =>
    have hi := not_of_ite_some_eq_none h
    exact ⟨_, _, exec_stRegs_stores x s hi, exec_stRegs_stores x (s.setSt b) hi, rfl⟩
  | ldRegs x =>
    have hi := not_of_ite_some_eq_none h
    exact ⟨_, _, exec_ldRegs_loads x s hi, exec_ldRegs_loads x (s.setSt b) hi, rfl⟩
  | skp x =>
    obtain ⟨k, hk⟩ := key_of_le (s.reg x) (not_of_ite_some_eq_none h)
    exact .of_skipIf _ (exec_skp_skips x s k hk) (exec_skp_skips x (s.setSt b) k hk)
  | sknp x =>
    obtain ⟨k, hk⟩ := key_of_le (s.reg x) (not_of_ite_some_eq_none h)
    exact .of_skipIf _ (exec_sknp_skips x s k hk) (exec_sknp_skips x (s.setSt b) k hk)
  | ldVxK x =>
    cases hk : s.firstKey with
    | some k => exact ⟨_, _, exec_ldVxK_pressed x s k hk, exec_ldVxK_pressed x (s.setSt b) k hk, rfl⟩
    | none => exact ⟨_, _, exec_ldVxK_waits x s hk, exec_ldVxK_waits x (s.setSt b) hk, rfl⟩
  | seByte | sneByte | seReg | sneReg => exact .of_skipIf _ rfl rfl
  | cls | jp | ldByte | addByte | ldReg | orReg | andReg | xorReg | addReg | sub | shr | subn | shl | ldI | jpV0 | rnd
  | ldVxDt | ldDtVx | ldStVx | addI | ldF => exact ⟨_, _, rfl, rfl, rfl⟩

/-- Settles O49: each instruction's answer, written out from both states, names no `ST` but the one it keeps or writes. -/
theorem noInstructionReadsSoundTimer : Obligations.NoInstructionReadsSoundTimer :=
  fun _ _ b => exec_blindToSt b

end Sys2Proof.Machine
end

section
/-! SUPPORT. Digits, bulk store and bulk load (43_index_and_memory.md R163 to R165) and `LOAD` (20_memory.md R68): each store is
one run of consecutive writes inside memory, so what a read gives after it is said once. -/

namespace Sys2Proof.Machine

/-! ### Reads after a run of writes -/

theorem read_writeBytes_inside {m : Memory} (h : m.wf) {a k : Nat} {ws : List Byte} (ha : a + ws.length ≤ 4096)
    (hk : k < ws.length) : (m.writeBytes a ws).read (a + k) = ws[k] := by
  rw [Memory.read_writeBytes h ha, if_neg (by omega), Nat.add_sub_cancel_left, List.getElem?_eq_getElem hk, Option.getD_some]

theorem read_writeBytes_outside {m : Memory} (h : m.wf) {a c : Nat} {ws : List Byte} (ha : a + ws.length ≤ 4096)
    (hc : c < a ∨ a + ws.length ≤ c) : (m.writeBytes a ws).read c = m.read c := by
  rw [Memory.read_writeBytes h ha]
  split
  · rfl
  · rw [List.getElem?_eq_none (by omega), Option.getD_none]

/-- The stored registers, read back one by one. -/
theorem read_firstRegs_stored {s : State} (h : MemCanonical s) {x r : Reg} (hx : s.base + x.val ≤ 4095) (hr : r ≤ x) :
    (s.mem.writeBytes s.base (s.firstRegs (x.val + 1))).read (s.base + r.val) = s.reg r := by
  have hr : r.val < x.val + 1 := Nat.lt_succ_of_le hr
  have hlen : r.val < (s.firstRegs (x.val + 1)).length := by rwa [length_firstRegs]
  rw [read_writeBytes_inside h (by rw [length_firstRegs]; omega) hlen]
  exact Option.some.inj ((List.getElem?_eq_getElem hlen).symm.trans (getElem?_firstRegs s _ _ hr r.isLt))

/-! ### Digits -/

theorem toNat_hundreds (b : Byte) : (b / 100).toNat = b.toNat / 100 := BitVec.toNat_udiv

theorem toNat_tens (b : Byte) : (b / 10 % 10).toNat = b.toNat / 10 % 10 := by
  rw [BitVec.toNat_umod, BitVec.toNat_udiv]; rfl

theorem toNat_ones (b : Byte) : (b % 10).toNat = b.toNat % 10 := BitVec.toNat_umod

/-- Settles O28: the three digits are stored in one run of writes; they spell the value because it is below 1000. -/
theorem ldBStoresDecimalDigits : Obligations.LdBStoresDecimalDigits := by
  intro x s hs
  refine ⟨decodeWord_ldB x, fun h => ⟨_, exec_ldB_faults x s (by rw [State.base] at h; omega), enterFault_takesFault _ s⟩,
    fun h => ?_⟩
  have hfit : s.base + (bcdDigits (s.reg x)).length ≤ 4096 := by rw [length_bcdDigits]; omega
  refine ⟨_, s.reg x / 100, s.reg x / 10 % 10, s.reg x % 10, exec_ldB_stores x s (by rw [State.base] at h; omega),
    read_writeBytes_inside (k := 0) hs hfit (by simp), read_writeBytes_inside (k := 1) hs hfit (by simp),
    read_writeBytes_inside (k := 2) hs hfit (by simp), toNat_hundreds _, toNat_tens _, toNat_ones _, ?_, fun a ha => ?_,
    sameBut_setMem s _⟩
  · rw [toNat_hundreds, toNat_tens, toNat_ones]
    omega
  · exact read_writeBytes_outside hs hfit (by rw [length_bcdDigits]; omega)

/-! ### Bulk store and load -/

/-- Settles O29: the registers are stored in one run of writes. -/
theorem stRegsStoresRegisters : Obligations.StRegsStoresRegisters := by
  intro x s hs
  refine ⟨decodeWord_stRegs x, fun h => ⟨_, exec_stRegs_faults x s h, enterFault_takesFault _ s⟩, fun h => ?_⟩
  refine ⟨_, exec_stRegs_stores x s (Nat.not_lt.2 h), fun r hr => read_firstRegs_stored hs h hr, fun a ha => ?_,
    sameBut_setMem s _⟩
  exact read_writeBytes_outside hs (by rw [length_firstRegs]; omega) (by rw [length_firstRegs]; omega)

theorem reg_loadRegs_le (s : State) {x r : Reg} (hr : r ≤ x) :
    State.reg { s with v := loadRegs s.mem s.base s.v (x.val + 1) } r = s.mem.read (s.base + r.val) :=
  (getElem_loadRegs _ _ _ _ r x.isLt).trans (if_pos (Nat.lt_succ_of_le hr))

theorem reg_loadRegs_gt (s : State) {x r : Reg} (hr : x < r) :
    State.reg { s with v := loadRegs s.mem s.base s.v (x.val + 1) } r = s.reg r :=
  (getElem_loadRegs _ _ _ _ r x.isLt).trans (if_neg (Nat.not_lt.2 hr))

/-- Settles O30: the registers up to `X` are read from memory, those above it are kept. -/
theorem ldRegsLoadsRegisters : Obligations.LdRegsLoadsRegisters := by
  intro x s
  refine ⟨decodeWord_ldRegs x, fun h => ⟨_, exec_ldRegs_faults x s h, enterFault_takesFault _ s⟩, fun h => ?_⟩
  exact ⟨_, exec_ldRegs_loads x s (Nat.not_lt.2 h), fun r hr => reg_loadRegs_le s hr, fun r hr => reg_loadRegs_gt s hr,
    sameBut_withRegs s _⟩

/-- Settles O31: the store keeps `I` and the change of registers keeps memory, so the load reads the stored bytes. -/
theorem storedRegistersLoadBack : Obligations.StoredRegistersLoadBack := by
  intro x s v hs h
  refine ⟨_, _, exec_stRegs_stores x s (Nat.not_lt.2 h), exec_ldRegs_loads x _ (Nat.not_lt.2 h), fun r hr => ?_,
    fun r hr => reg_loadRegs_gt _ hr⟩
  exact (reg_loadRegs_le _ hr).trans (read_firstRegs_stored hs h hr)

theorem fetch_inside {s : State} (h : s.pc.toNat ≤ 4094) : s.fetch = some (s.wordAtPc, s.setPc (s.pc + 2)) := by
  rw [fetch_eq, if_pos h, State.wordAtPc]

/-- Settles O32: the fetch reads two neighbouring stored bytes, both inside memory. -/
theorem storeIsSeenByNextFetch : Obligations.StoreIsSeenByNextFetch := by
  intro x k s a hk hs h hkx ha
  have hhi := read_firstRegs_stored hs h (r := ⟨k, by omega⟩) (Nat.le_of_lt hkx)
  have hlo := read_firstRegs_stored hs h (r := ⟨k + 1, hk⟩) hkx
  refine ⟨_, _, exec_stRegs_stores x s (Nat.not_lt.2 h),
    (fetch_inside (by rw [setPc_pc]; omega)).trans (congrArg (fun w => some (w, _)) ?_), rfl⟩
  rw [State.wordAtPc, setPc_pc, setPc_mem, setMem_mem, ha, hhi, Nat.add_assoc, hlo]
  rfl

/-! ### `LOAD` -/

/-- Settles O43: a load inside memory is one run of writes from 0x200, a longer one the fault. -/
theorem loadCopiesToProgramStart : Obligations.LoadCopiesToProgramStart := by
  intro bytes s hs hf he
  rw [step_of_nextEvent he]
  refine ⟨fun h => ⟨_, rfl, ?_⟩, fun h => ⟨_, rfl, ?_⟩⟩
  · rw [onLoad_oversize s.takeEvent bytes hf h]
    exact enterFault_takesFault _ _
  · rw [onLoad_fits s.takeEvent bytes hf h]
    have hfit : 0x200 + bytes.length ≤ 4096 := by omega
    exact ⟨fun k hk => read_writeBytes_inside hs hfit hk, fun a ha => read_writeBytes_outside hs hfit ha,
      sameBut_setMem _ _⟩

end Sys2Proof.Machine
end

section
/-! SUPPORT. The sprite (45_display.md R176): drawing, said cell by cell of the state it starts from, once and then twice; and the
read-out (R178). -/

namespace Sys2Proof.Machine

/-- A row of at most 15 lights the cells of `Lit`. -/
theorem draws_drawn (s : State) (x y : Reg) {n : Nat} (hn : n ≤ 15) :
    Draws (Lit s (s.reg x) (s.reg y) n) (s.fb, false) (s.drawn x y n) := by
  refine (draws_drawRows _ _ _ _ (by rw [Memory.length_readBytes]; omega)).congr fun py px => ?_
  constructor
  · rintro ⟨row, b, col, hr, hc, hb, hy, hx⟩
    have hrow : row < n := by simpa using (List.getElem?_eq_some_iff.1 hr).1
    rw [Memory.getElem?_readBytes _ _ _ _ hrow, Option.some.injEq] at hr
    exact ⟨row, col, hrow, hc, hr ▸ hb, hy.symm, hx.symm⟩
  · rintro ⟨row, col, hrow, hc, hb, hy, hx⟩
    exact ⟨row, _, col, Memory.getElem?_readBytes _ _ _ _ hrow, hc, hb, hy.symm, hx.symm⟩

/-- The state after a sprite inside memory is drawn. -/
def State.afterDraw (s : State) (x y : Reg) (n : Nat) : State :=
  (s.setFb (s.drawn x y n).1).setReg flagReg (flagByte (s.drawn x y n).2)

section
variable (s : State) (x y : Reg) {n : Nat}

theorem exec_drw_afterDraw (h : n = 0 ∨ s.base + n - 1 ≤ 4095) : exec (.drw x y n) s = .next (s.afterDraw x y n) :=
  exec_drw_draws x y n s (by rw [State.base] at h; omega)

theorem afterDraw_pixel_lit (hn : n ≤ 15) {py : Fin 32} {px : Fin 64} (hl : Lit s (s.reg x) (s.reg y) n py px) :
    (s.afterDraw x y n).fb.pixel py px = !s.fb.pixel py px :=
  (draws_drawn s x y hn).1 py px hl

theorem afterDraw_pixel_unlit (hn : n ≤ 15) {py : Fin 32} {px : Fin 64} (hl : ¬ Lit s (s.reg x) (s.reg y) n py px) :
    (s.afterDraw x y n).fb.pixel py px = s.fb.pixel py px :=
  (draws_drawn s x y hn).2.1 py px hl

/-- The collision: a lit cell was set. -/
theorem drawn_collides_iff (hn : n ≤ 15) :
    (s.drawn x y n).2 = true ↔ ∃ py px, Lit s (s.reg x) (s.reg y) n py px ∧ s.fb.pixel py px = true := by
  simpa using (draws_drawn s x y hn).2.2

theorem afterDraw_flag : (s.afterDraw x y n).reg 15 = flagByte (s.drawn x y n).2 := reg_setReg_self _ flagReg _

theorem afterDraw_flag_eq_one_iff (hn : n ≤ 15) :
    (s.afterDraw x y n).reg 15 = 1 ↔ ∃ py px, Lit s (s.reg x) (s.reg y) n py px ∧ s.fb.pixel py px = true := by
  rw [afterDraw_flag, ← drawn_collides_iff s x y hn]
  cases (s.drawn x y n).2 <;> decide

theorem afterDraw_flag_eq_zero (h : (s.drawn x y n).2 = false) : (s.afterDraw x y n).reg 15 = 0 := by
  rw [afterDraw_flag, h]
  rfl

theorem afterDraw_reg {r : Reg} (hr : r ≠ 15) : (s.afterDraw x y n).reg r = s.reg r :=
  reg_setReg_ne _ flagReg r _ (Ne.symm hr)

end

/-- Settles O35: the loops' one formula per cell, and the flag from the collision. -/
theorem drwXorsSprite : Obligations.DrwXorsSprite := by
  intro x y n s hn
  refine ⟨decodeWord_drw x y n hn, fun h => ⟨_, exec_drw_faults x y n s h, enterFault_takesFault _ s⟩, fun h => ?_⟩
  refine ⟨_, exec_drw_afterDraw s x y h, fun _ _ => afterDraw_pixel_lit s x y hn,
    fun _ _ => afterDraw_pixel_unlit s x y hn, (afterDraw_flag_eq_one_iff s x y hn).2, fun hclear => ?_,
    fun r hr => afterDraw_reg s x y (List.ne_of_not_mem_cons hr), sameBut_setFb_setReg s _ _ _⟩
  refine afterDraw_flag_eq_zero s x y (Bool.eq_false_iff.2 fun hc => ?_)
  obtain ⟨py, px, hl, hset⟩ := (drawn_collides_iff s x y hn).1 hc
  rw [hclear py px hl] at hset
  cases hset

/-- Settles O36: with the coordinates outside `VF` the second draw lights the cells of the first, so each is flipped twice, and
it finds one set exactly when the first found it clear. -/
theorem drawingTwiceRestores : Obligations.DrawingTwiceRestores := by
  intro x y n s hn hx hy h
  have hlit : Lit (s.afterDraw x y n) ((s.afterDraw x y n).reg x) ((s.afterDraw x y n).reg y) n =
      Lit s (s.reg x) (s.reg y) n := by
    rw [afterDraw_reg s x y hx, afterDraw_reg s x y hy]
    rfl
  refine ⟨_, _, exec_drw_afterDraw s x y h, exec_drw_afterDraw (s.afterDraw x y n) x y h, fun py px => ?_, ?_⟩
  · by_cases hl : Lit s (s.reg x) (s.reg y) n py px
    · rw [afterDraw_pixel_lit _ x y hn (hlit ▸ hl), afterDraw_pixel_lit s x y hn hl, Bool.not_not]
    · rw [afterDraw_pixel_unlit _ x y hn (hlit ▸ hl), afterDraw_pixel_unlit s x y hn hl]
  · rw [afterDraw_flag_eq_one_iff _ x y hn, hlit]
    refine exists_congr fun py => exists_congr fun px => and_congr_right fun hl => ?_
    rw [afterDraw_pixel_lit s x y hn hl, Bool.not_eq_true']

/-- An output is appended, and nothing else changes. -/
theorem sameBut_emit (s : State) (o : Output) : SameBut [.outbox] s (s.emit o) := by
  intro p hp
  have hrefl := Part.Same.refl p s
  cases p with
  | outbox => exact absurd List.mem_cons_self hp
  | _ => exact hrefl

/-- Settles O47: the read-out is one emission. -/
theorem fbReadIsRowMajor : Obligations.FbReadIsRowMajor := by
  intro s hf he
  refine ⟨_, s.fb.readOut, (step_of_nextEvent he).trans (congrArg Host.Outcome.next (onFbRead_running s.takeEvent hf)), rfl,
    length_readOut _, getElem?_readOut s.fb, sameBut_emit _ _⟩

end Sys2Proof.Machine
end

section
/-! SUPPORT. The host's events one by one (10_state.md R36), and runs of several steps: a state a step leaves as it is stays, and
a running sound timer is counted down. -/

namespace Sys2Proof.Machine

/-! ### `RESET` and the faulted state -/

theorem hasResetValues_reset : HasResetValues State.reset := by
  refine ⟨rfl, fun r => ?_, rfl, fun j => ?_, rfl, fun k => ?_, rfl, rfl, pixel_clear, rfl, fun a ha => ?_, fun a ha _ => ?_⟩
  · simp [State.reg, State.reset]
  · simp [State.reset]
  · simp [State.key, State.reset]
  · exact if_pos ha
  · exact if_neg (Nat.not_lt.2 ha)

/-- Settles O9: a `RESET` leaves the reset state but for the model's own fields, which the reset values do not name. -/
theorem resetRestoresCreation : Obligations.ResetRestoresCreation :=
  ⟨hasResetValues_reset, fun _ he => ⟨_, step_of_nextEvent he, hasResetValues_reset, rfl, rfl⟩⟩

/-- Taking an event from the host changes nothing but the inbox. -/
theorem sameBut_takeEvent (s : State) : SameBut [.inbox] s s.takeEvent := by
  intro p hp
  have hrefl := Part.Same.refl p s
  cases p with
  | inbox => exact absurd List.mem_cons_self hp
  | _ => exact hrefl

/-- While faulted an event other than `RESET` and `FBREAD` leaves the state as it is. -/
theorem present_faulted {e : Event} {s : State} (hf : s.faulted = true) (hr : e ≠ .reset) (hb : e ≠ .fbRead) :
    present e s = .next s := by
  cases e with
  | reset => exact absurd rfl hr
  | load bytes => exact congrArg _ (onLoad_faulted s bytes hf)
  | setKey k p => exact congrArg _ (onSetKey_faulted s k p hf)
  | cycle => exact cycle_faulted s hf
  | tick => exact congrArg _ (onTick_faulted s hf)
  | fbRead => exact absurd rfl hb

theorem sameBut_onFbRead (s : State) : SameBut [.draws, .outbox] s s.onFbRead := by
  cases hf : s.faulted with
  | true =>
    rw [onFbRead_faulted s hf]
    exact ((sameBut_emit s _).mono (by simp)).trans ((sameBut_withDraws _ _).mono (by simp))
  | false =>
    rw [onFbRead_running s hf]
    exact (sameBut_emit s _).mono (by simp)

/-- Settles O8: `FBREAD` appends its read-out, and every other event but `RESET` is only taken. -/
theorem faultedStateAbsorbs : Obligations.FaultedStateAbsorbs := by
  intro s hf hr
  have htake : SameBut [.draws, .inbox, .outbox] s s.takeEvent := (sameBut_takeEvent s).mono (by simp)
  by_cases hb : s.nextEvent = .fbRead
  · refine ⟨_, step_of_nextEvent hb, htake.trans ((sameBut_onFbRead s.takeEvent).mono (by simp)), ?_, fun h => absurd hb h,
      fun _ => ⟨_, ?_, congrArg State.outbox (onFbRead_faulted s.takeEvent hf)⟩⟩
    · rw [onFbRead_faulted s.takeEvent hf]
      rfl
    · rw [List.length_map, List.length_range]
  · exact ⟨_, present_faulted (s := s.takeEvent) hf hr hb, htake, rfl, fun _ => ⟨rfl, rfl⟩, fun h => absurd h hb⟩

/-! ### `SETKEY` and `TICK` -/

/-- Replacing the keys keeps every other element. -/
theorem sameBut_withKeys (s : State) (v : Vector Bool 16) : SameBut [.keys] s { s with keys := v } := by
  intro p hp
  have hrefl := Part.Same.refl p s
  cases p with
  | keys => exact absurd List.mem_cons_self hp
  | _ => exact hrefl

/-- Settles O44: the event is one write of one key. -/
theorem setKeyChangesOneKey : Obligations.SetKeyChangesOneKey := by
  intro k p s hf he
  refine ⟨_, (step_of_nextEvent he).trans (congrArg Host.Outcome.next (onSetKey_running s.takeEvent k p hf)),
    Vector.getElem_set_self k.isLt, fun j hj => ?_, sameBut_withKeys _ _⟩
  exact Vector.getElem_set_ne k.isLt j.isLt fun h => hj (Fin.ext h.symm)

theorem sameBut_countTimers (s : State) : SameBut [.dt, .st] s s.countTimers :=
  ((sameBut_setDt s _).mono (by simp)).trans ((sameBut_setSt _ _).mono (by simp))

theorem step_tick_sounding {s : State} (hf : s.faulted = false) (he : s.nextEvent = .tick) (h : s.st = 1) :
    step s = .next (s.takeEvent.countTimers.emit .soundStop) :=
  (step_of_nextEvent he).trans (congrArg Host.Outcome.next (onTick_sounding s.takeEvent hf h))

theorem step_tick_silent {s : State} (hf : s.faulted = false) (he : s.nextEvent = .tick) (h : s.st ≠ 1) :
    step s = .next s.takeEvent.countTimers :=
  (step_of_nextEvent he).trans (congrArg Host.Outcome.next (onTick_silent s.takeEvent hf h))

/-- Settles O45: both timers are counted down in either case, and the output is emitted in the one with `ST` at 1. -/
theorem tickCountsTimersDown : Obligations.TickCountsTimersDown := by
  intro s hf he
  have hframe : SameBut [.dt, .st, .outbox] s.takeEvent s.takeEvent.countTimers :=
    (sameBut_countTimers s.takeEvent).mono (by simp)
  by_cases h : s.st = 1
  · exact ⟨_, step_tick_sounding hf he h, toNat_countDown _, toNat_countDown _, fun _ => rfl, fun h' => absurd h h',
      hframe.trans ((sameBut_emit _ _).mono (by simp))⟩
  · exact ⟨_, step_tick_silent hf he h, toNat_countDown _, toNat_countDown _, fun h' => absurd h' h, fun _ => rfl, hframe⟩

/-! ### Runs -/

theorem run_succ_of_step {s t : State} (h : step s = .next t) (n : Nat) :
    Host.Core.run core (n + 1) s = Host.Core.run core n t := by
  have h : core.step s = .next t := h
  simp only [Host.Core.run, h]

/-- A state that a step leaves as it is stays for any number of steps. -/
theorem run_of_step_self {s : State} (h : step s = .next s) (n : Nat) : Host.Core.run core n s = .next s := by
  induction n with
  | zero => rfl
  | succ n ih => rw [run_succ_of_step h, ih]

/-- One more step at the end of a run. -/
theorem run_succ_of_run {s t u : State} {n : Nat} (h : Host.Core.run core n s = .next t) (hu : step t = .next u) :
    Host.Core.run core (n + 1) s = .next u := by
  induction n generalizing s with
  | zero =>
    cases h
    exact run_succ_of_step hu 0
  | succ n ih =>
    cases hs : step s with
    | next s' =>
      rw [run_succ_of_step hs] at h ⊢
      exact ih h
    | fault r => nomatch r
    | refused r =>
      have hs : core.step s = .refused r := hs
      simp [Host.Core.run, hs] at h

/-- From an empty inbox the event taken is the `CYCLE` that is always there. -/
theorem takeEvent_of_inbox_nil {s : State} (h : s.inbox = []) : s.takeEvent = s := by
  have ht : s.inbox.tail = s.inbox := by rw [h]; rfl
  rw [State.takeEvent, ht]

/-- Settles O40: the fetch moves `pc` on by 2 and the key wait moves it back. -/
theorem keyWaitStalls : Obligations.KeyWaitStalls := by
  intro x s n hc hin hd hk
  refine run_of_step_self ?_ n
  rw [step_decoded hc hd, takeEvent_of_inbox_nil hin, exec_ldVxK_waits x (s.setPc (s.pc + 2)) (firstKey_eq_none s hk), setPc_pc,
    BitVec.add_sub_cancel]
  rfl

/-- Settles O51: the jump sets `pc` to the address it was fetched from. -/
theorem jumpToSelfRests : Obligations.JumpToSelfRests := by
  intro nnn s n hc hin hd hpc
  refine run_of_step_self ?_ n
  have hz : zext12 nnn = s.pc := BitVec.eq_of_toNat_eq ((toNat_zext12 nnn).trans hpc.symm)
  rw [step_decoded hc hd, takeEvent_of_inbox_nil hin, exec_jp, hz]
  rfl

/-! ### A running sound timer (47_timers.md R198) -/

/-- `m` ticks are coming to a running `ST` of `m`. -/
def CountingDown (m : Nat) (s : State) : Prop :=
  s.faulted = false ∧ s.st.toNat = m ∧ s.inbox = List.replicate m .tick

theorem CountingDown.nextEvent {m : Nat} {s : State} (h : CountingDown (m + 1) s) : s.nextEvent = .tick := by
  obtain ⟨-, -, hin⟩ := h
  rw [State.nextEvent, hin]
  rfl

/-- A tick that is not the last counts down and emits nothing. -/
theorem CountingDown.tick {m : Nat} {s : State} (h : CountingDown (m + 2) s) :
    ∃ t, step s = .next t ∧ CountingDown (m + 1) t ∧ t.outbox = s.outbox := by
  have he := h.nextEvent
  obtain ⟨hf, hst, hin⟩ := h
  have hne : s.st ≠ 1 := fun h1 => by
    have h1 : s.st.toNat = 1 := congrArg BitVec.toNat h1
    omega
  refine ⟨_, step_tick_silent hf he hne, ⟨hf, ?_, congrArg List.tail hin⟩, rfl⟩
  exact (toNat_countDown s.st).trans (by rw [hst]; rfl)

/-- The last tick takes `ST` to 0 and emits `SOUND_STOP`. -/
theorem CountingDown.last_tick {s : State} (h : CountingDown 1 s) :
    ∃ t, step s = .next t ∧ t.st = 0 ∧ t.outbox = s.outbox ++ [.soundStop] := by
  have he := h.nextEvent
  obtain ⟨hf, hst, -⟩ := h
  have h1 : s.st = 1 := BitVec.eq_of_toNat_eq hst
  refine ⟨_, step_tick_sounding hf he h1, ?_, rfl⟩
  show countDown s.st = 0
  rw [h1]
  rfl

/-- All ticks but the last, by induction on how many have been taken. -/
theorem CountingDown.run {n : Nat} {s : State} (h : CountingDown n s) (k : Nat) (hk : k < n) :
    ∃ t, Host.Core.run core k s = .next t ∧ CountingDown (n - k) t ∧ t.outbox = s.outbox := by
  induction k with
  | zero => exact ⟨s, rfl, h, rfl⟩
  | succ k ih =>
    obtain ⟨t, hrun, ht, hout⟩ := ih (by omega)
    rw [show n - k = n - (k + 2) + 2 by omega] at ht
    obtain ⟨u, hstep, hu, hout'⟩ := ht.tick
    exact ⟨u, run_succ_of_run hrun hstep, by rwa [show n - (k + 1) = n - (k + 2) + 1 by omega], hout'.trans hout⟩

/-- Settles O46: `n - 1` silent ticks, and then the last. -/
theorem soundStopOnTheLastTick : Obligations.SoundStopOnTheLastTick := by
  intro s n hf hn hst hin
  have h : CountingDown n s := ⟨hf, hst, hin⟩
  refine ⟨fun k hk => ?_, ?_⟩
  · obtain ⟨t, hrun, ⟨-, ht, -⟩, hout⟩ := h.run k hk
    exact ⟨t, hrun, ht, hout⟩
  · obtain ⟨m, rfl⟩ : ∃ m, n = m + 1 := ⟨n - 1, by omega⟩
    obtain ⟨t, hrun, ht, hout⟩ := h.run m (Nat.lt_succ_self m)
    rw [Nat.add_sub_cancel_left] at ht
    obtain ⟨u, hstep, hu, hout'⟩ := ht.last_tick
    exact ⟨u, run_succ_of_run hrun hstep, hu, hout'.trans (by rw [hout])⟩

end Sys2Proof.Machine
end
